-- ==== Sys2Proof/Word.lean ====
section
/-! DEFINITION. The two word sizes of the block (spec/00_scope.md R10): `u8` and `u16`, and the sentinel (R13). -/

namespace Sys2Proof

/-- `u8` (R10): a byte of shared memory, of the decrypted table or of a substitution table. -/
abbrev Byte := BitVec 8

/-- `u16` (R10): a handshake cell, a header word, a store word, the switch, the status. -/
abbrev Word := BitVec 16

/-- The sentinel (R13): all 16 bits set. -/
def sentinel : Word := 0xFFFF#16

end Sys2Proof
end

