-- ==== Sys2Proof/Config.lean ====
section
/-! DEFINITION. What the block is built with (spec/00_scope.md R7, R8; spec/10_state.md R20), and the launch inputs the
model's reset state takes for the parameters the spec leaves OPEN (log entry 2). -/

namespace Sys2Proof

/-- Which substitution table the profile selects (R7, R101). -/
inductive TableSel where
  | normal
  | alt
deriving DecidableEq, Repr

/-- Treatment of an odd `dest_offset` (R8, R84). -/
inductive OddDestPolicy where
  | fault
  | split
deriving DecidableEq, Repr

/-- The game-variant profile (R7). `overrides` is the map from a sub-command byte to its literal response, in stream
order (R162), as plain data: a list of pairs, keys strictly rising (WellFormed.lean; log entry 11). -/
structure Profile where
  tableSel        : TableSel
  overrides       : List (Byte × List Byte)
  factoryDefaults : Option (Vector Word 64)
deriving DecidableEq, Repr

/-- The configuration record (R20) with the parameters of R8. RAW and STORE_INIT are inputs of initialisation only
(R33, R30) and stand in no field; PORT_ADDR has no counterpart, the ports being abstract ids (R110). -/
structure Config where
  profile     : Profile
  romSize     : Nat
  tNormal     : Vector Byte 256
  tAlt        : Vector Byte 256
  descBase    : Nat
  payloadBase : Nat
  shmBytes    : Nat
  statusValue : Word
  oddDest     : OddDestPolicy
deriving DecidableEq, Repr

/-- DESIGN CHOICE (log entry 2): the configuration of `State.reset`. ROM_SIZE is the source's example (R8), ODD_DEST_POLICY
the spec's default (R84), SHM_BYTES the size spec/95 §2.1 uses; every other parameter is zero or none. -/
def Config.launch : Config where
  profile     := ⟨.normal, [], none⟩
  romSize     := 0x20000
  tNormal     := Vector.replicate 256 0
  tAlt        := Vector.replicate 256 0
  descBase    := 0
  payloadBase := 0
  shmBytes    := 0x1000
  statusValue := 0
  oddDest     := .fault

/-- DESIGN CHOICE (log entry 2): the raw image of `State.reset`. -/
def launchRaw : List Byte := List.replicate 0x20000 0

/-- DESIGN CHOICE (log entry 2): the store contents of `State.reset`. -/
def launchStore : Vector Word 64 := Vector.replicate 64 0

/-- DESIGN CHOICE (log entry 2): the switch value of `State.reset`. -/
def launchSwitch : Word := 0

end Sys2Proof
end

