-- ==== Sys2Proof/Syntax.lean ====
section
/-! DEFINITION. The instructions: one constructor per row of spec/opcode_table.json (spec/30_encoding.md R80, R85). -/

namespace Sys2Proof

/-- An instruction of the block. The commands (format CMD, R82) carry the header's fields: `qual` is `opcode[7:0]`, `dest`
the word at 0x12, `param` the word at 0x14; an unrecognised command carries its whole opcode word. The bus events (format
BUS, R81) carry the value written and the write mask. -/
inductive Instr where
  /-- op 0x02: store to shared memory (R132) -/
  | loadset (qual : Byte) (dest param : Word)
  /-- op 0x03: configuration switch to shared memory (R141) -/
  | rdsw (qual : Byte) (dest param : Word)
  /-- op 0x04: protection data transfer (R160) -/
  | prot (qual : Byte) (dest param : Word)
  /-- op 0x42: shared memory to store (R135) -/
  | saveset (qual : Byte) (dest param : Word)
  /-- op 0x43: factory defaults to store (R138) -/
  | factdef (qual : Byte) (dest param : Word)
  /-- every other op: diagnostic record only (R144) -/
  | unrecognised (opcode dest param : Word)
  /-- write handshake cell 0 (R111) -/
  | hsw0 (value mask : Word)
  /-- write handshake cell 1 (R111) -/
  | hsw1 (value mask : Word)
  /-- write handshake cell 2 (R111) -/
  | hsw2 (value mask : Word)
  /-- write handshake cell 3 (R111) -/
  | hsw3 (value mask : Word)
  /-- read status (R116) -/
  | statrd
deriving DecidableEq, Repr

/-- HSWn: the write of handshake cell `n` (spec/30_encoding.md R90, spec/41_handshake.md R111). -/
def Instr.hsw (n : Fin 4) (value mask : Word) : Instr :=
  match n with
  | 0 => .hsw0 value mask
  | 1 => .hsw1 value mask
  | 2 => .hsw2 value mask
  | 3 => .hsw3 value mask

/-- The two formats of R80: a bus event is decoded by its port, a command by its header. -/
inductive Format where
  | bus
  | cmd
deriving DecidableEq, Repr

/-- The format column of spec/opcode_table.json. -/
def Instr.format : Instr → Format
  | .loadset _ _ _ | .rdsw _ _ _ | .prot _ _ _ | .saveset _ _ _ | .factdef _ _ _ | .unrecognised _ _ _ => .cmd
  | .hsw0 _ _ | .hsw1 _ _ | .hsw2 _ _ | .hsw3 _ _ | .statrd => .bus

end Sys2Proof
end

