-- ==== Sys2Proof/WellFormed.lean ====
section
/-! DEFINITION. The checks on instructions and on the configuration. -/

namespace Sys2Proof

/-- An instruction is well formed when its fields say one row of the opcode table: an unrecognised command's opcode word
has none of the five recognised high bytes (spec/30_encoding.md R85, R87). Every other field admits every value (R81: "Any
16-bit mask is admitted"; R84 and R86 give odd destinations and every qualifier a meaning). -/
def Instr.wf : Instr → Bool
  | .unrecognised opcode _ _ => !(([0x02#8, 0x03#8, 0x04#8, 0x42#8, 0x43#8] : List Byte).contains (opcode.extractLsb' 8 8))
  | .loadset _ _ _ | .rdsw _ _ _ | .prot _ _ _ | .saveset _ _ _ | .factdef _ _ _ => true
  | .hsw0 _ _ | .hsw1 _ _ | .hsw2 _ _ | .hsw3 _ _ | .statrd => true

/-- SHM_BYTES is even and at least 0x16 (spec/00_scope.md R8); the override map lists each sub-command once, keys rising,
so that equal maps are equal data. -/
def Config.wf (c : Config) : Bool :=
  c.shmBytes % 2 == 0 && decide (0x16 ≤ c.shmBytes) &&
    decide (c.profile.overrides.Pairwise fun p q => p.1.toNat < q.1.toNat)

end Sys2Proof
end

