-- ==== Sys2Proof/Decode.lean ====
section
/-! DEFINITION. The byte-order helpers, the decoder (total, rejecting by name) and after it the encoder, both written from
spec/30_encoding.md R81, R82, R83, R85 and spec/opcode_table.json. -/

namespace Sys2Proof

/-- `hi(w) = w[15:8]` (spec/00_scope.md R10). -/
def hiByte (w : Word) : Byte := w.extractLsb' 8 8

/-- `lo(w) = w[7:0]` (R10). -/
def loByte (w : Word) : Byte := w.extractLsb' 0 8

/-- `a ++ b = (a << 8) | b` on bytes (R10): the first byte is the most significant. -/
def joinBytes (a b : Byte) : Word := a ++ b

/-! ## Commands -/

/-- The six branches of the dispatcher (spec/42_dispatcher.md R130). -/
inductive Op where
  | loadset
  | rdsw
  | prot
  | saveset
  | factdef
  | unrecognised
deriving DecidableEq, Repr

/-- The command opcode map on `op = opcode[15:8]` (R85); the qualifier byte plays no part (R86). -/
def routeOp (opcode : Word) : Op :=
  if hiByte opcode = 0x02#8 then .loadset
  else if hiByte opcode = 0x03#8 then .rdsw
  else if hiByte opcode = 0x04#8 then .prot
  else if hiByte opcode = 0x42#8 then .saveset
  else if hiByte opcode = 0x43#8 then .factdef
  else .unrecognised

/-- The command that the header's three words stand for (R82). No command encoding is illegal (R87). -/
def decodeHeader (opcode dest param : Word) : Instr :=
  match routeOp opcode with
  | .loadset => .loadset (loByte opcode) dest param
  | .rdsw => .rdsw (loByte opcode) dest param
  | .prot => .prot (loByte opcode) dest param
  | .saveset => .saveset (loByte opcode) dest param
  | .factdef => .factdef (loByte opcode) dest param
  | .unrecognised => .unrecognised opcode dest param

/-! ## Bus events -/

/-- Why an access or a byte string stands for no instruction (spec/41_handshake.md R117). -/
inductive Reject where
  /-- a read of port 0, 1, 2 or 3: the cells have no read surface -/
  | handshakeRead (port : Nat)
  /-- a write to port 4: the status register is read-only -/
  | statusWrite
  /-- an access to a port id outside 0..4 -/
  | noSuchPort (port : Nat)
  /-- fewer bytes than the three words of an instruction -/
  | truncated
deriving DecidableEq, Repr

/-- The instruction of a bus write of `value` under `mask` to a port (R110, R111). -/
def decodeBusWrite (port : Nat) (value mask : Word) : Except Reject Instr :=
  match port with
  | 0 => .ok (.hsw0 value mask)
  | 1 => .ok (.hsw1 value mask)
  | 2 => .ok (.hsw2 value mask)
  | 3 => .ok (.hsw3 value mask)
  | 4 => .error .statusWrite
  | p => .error (.noSuchPort p)

/-- The instruction of a bus read of a port (R110, R116). -/
def decodeBusRead (port : Nat) : Except Reject Instr :=
  if port = 4 then .ok .statrd
  else if port < 4 then .error (.handshakeRead port)
  else .error (.noSuchPort port)

/-- The tuple `(port, value, mask)` of R81: port 4 is a read, whose value and mask are unused; every other port is taken
as a write. -/
def decodeBus (port : Nat) (value mask : Word) : Except Reject Instr :=
  if port = 4 then decodeBusRead port else decodeBusWrite port value mask

/-! ## Words, bytes and the table's numbering -/

/-- An instruction is three words in either format: the header (R82), or port, value and mask (R81; log entry 7). -/
def decodeWords (f : Format) (w0 w1 w2 : Word) : Except Reject Instr :=
  match f with
  | .cmd => .ok (decodeHeader w0 w1 w2)
  | .bus => decodeBus w0.toNat w1 w2

/-- The same from bytes, each word high byte first (spec/20_memory.md R51), with the bytes that follow. -/
def decodeBytes (f : Format) (bytes : List Byte) : Except Reject (Instr × List Byte) :=
  match bytes with
  | b0 :: b1 :: b2 :: b3 :: b4 :: b5 :: rest =>
    match decodeWords f (joinBytes b0 b1) (joinBytes b2 b3) (joinBytes b4 b5) with
    | .ok i => .ok (i, rest)
    | .error r => .error r
  | _ => .error .truncated

/-- The format of a row whose match and mask take `nbits` bits in whole bytes: a BUS row is matched on its 3-bit port id, a
CMD row on the 16-bit opcode word (spec/opcode_table.json; log entry 7). -/
def tableFormat (nbits : Nat) : Format := if nbits = 8 then .bus else .cmd

/-- Word `k` of an instruction whose bits are numbered as the table numbers them, the words in the order of log entry 7. -/
def tableWord (w k : Nat) : Word := BitVec.ofNat 16 (w >>> (16 * k))

/-- The bytes of an instruction given in the table's numbering. -/
def tableBytes (w : Nat) : List Byte :=
  [hiByte (tableWord w 0), loByte (tableWord w 0), hiByte (tableWord w 1), loByte (tableWord w 1),
    hiByte (tableWord w 2), loByte (tableWord w 2)]

/-- The instruction the decoder reads from an instruction word of the opcode table. -/
def decodeTableWord (nbits w : Nat) : Option Instr :=
  match decodeBytes (tableFormat nbits) (tableBytes w) with
  | .ok (i, _) => some i
  | .error _ => none

/-! ## The encoder -/

/-- The three words of an instruction (R81, R82, R85). -/
def encodeWords : Instr → Word × Word × Word
  | .loadset qual dest param => (joinBytes 0x02#8 qual, dest, param)
  | .rdsw qual dest param => (joinBytes 0x03#8 qual, dest, param)
  | .prot qual dest param => (joinBytes 0x04#8 qual, dest, param)
  | .saveset qual dest param => (joinBytes 0x42#8 qual, dest, param)
  | .factdef qual dest param => (joinBytes 0x43#8 qual, dest, param)
  | .unrecognised opcode dest param => (opcode, dest, param)
  | .hsw0 value mask => (0#16, value, mask)
  | .hsw1 value mask => (1#16, value, mask)
  | .hsw2 value mask => (2#16, value, mask)
  | .hsw3 value mask => (3#16, value, mask)
  | .statrd => (4#16, 0#16, 0#16)

/-- The six bytes of an instruction, each word high byte first. -/
def encode (i : Instr) : List Byte :=
  [hiByte (encodeWords i).1, loByte (encodeWords i).1, hiByte (encodeWords i).2.1, loByte (encodeWords i).2.1,
    hiByte (encodeWords i).2.2, loByte (encodeWords i).2.2]

end Sys2Proof
end

