-- ==== Sys2Proof/Machine/Decryptor.lean ====
section
/-! DEFINITION. The ROM decryption engine and its table selector (spec/40_decryptor.md R100, R101), run by initialisation
only (R102): nothing but `State.init` calls it, and it takes the raw image, never its own output. -/

namespace Sys2Proof.Machine

/-- Table selection (R101). -/
def selectTable (c : Config) : Vector Byte 256 :=
  match c.profile.tableSel with
  | .normal => c.tNormal
  | .alt => c.tAlt

/-- The key byte of position `i`: `T[(i ^ 1) & 0xFF]` (R100). -/
def decryptKey (t : Vector Byte 256) (i : Nat) : Byte :=
  t[(i ^^^ 1) &&& 0xFF]'(Nat.lt_of_le_of_lt Nat.and_le_right (by decide))

/-- The bytes of a raw image from position `i` on, each with its key added modulo 256 (R100). -/
def decryptFrom (t : Vector Byte 256) : Nat → List Byte → List Byte
  | _, [] => []
  | i, b :: bs => (b + decryptKey t i) :: decryptFrom t (i + 1) bs

/-- `Decrypt(RAW, T)` (R100). -/
def decrypt (t : Vector Byte 256) (raw : List Byte) : List Byte := decryptFrom t 0 raw

end Sys2Proof.Machine
end

