-- ==== Sys2Proof/Machine/State.lean ====
section
/-! DEFINITION. The state of the block as plain data (spec/10_state.md R20), its faults and refusals, initialisation and the
state after reset. -/

namespace Sys2Proof.Machine

/-- The four fault codes with their information (spec/60_exceptions.md R190). A step that raises one answers a NEXT state
that holds it (R191, log entry 5); the outcome `fault` is answered by every event issued after that, since a faulted state has
no step. All four are safe: the model stops where the source leaves the behaviour open. -/
inductive Fault where
  /-- UNINIT_READ: the core read a shared-memory byte that nothing has written; raised by every dispatch's header read and
  by SAVESET; safe -/
  | uninitRead (addr : Nat)
  /-- ODD_DEST: an odd `dest_offset` under ODD_DEST_POLICY = FAULT; raised by LOADSET, SAVESET, RDSW, PROT; safe -/
  | oddDest (dest : Nat)
  /-- SHM_RANGE: the command's shared-memory range passes SHM_BYTES; raised by LOADSET, SAVESET, RDSW, PROT; safe -/
  | shmRange (addr : Nat)
  /-- ROM_RANGE: the descriptor or the payload passes ROM_SIZE; raised by PROT; safe -/
  | romRange (index : Nat)
deriving DecidableEq, Repr

/-- Why an event has no step although the state holds no fault. -/
inductive Refusal where
  /-- raised by an arm of `exec` for an instruction with no meaning yet; safe; no arm raises it -/
  | notModelled (mnemonic : String)
  /-- raised by `step` when the host issues no further event: the run has ended (spec/70_reset_and_hazards.md R228); safe -/
  | noEvent
  /-- raised by `step` for a bus access outside the interface (spec/41_handshake.md R117); safe -/
  | rejected (why : Reject)
  /-- raised by `step` for a host shared-memory access at or above SHM_BYTES (spec/20_memory.md R54); safe -/
  | hostOutOfRange (addr : Nat)
  /-- raised by `step` for a host word access at an odd address (R54, D36); safe -/
  | hostUnaligned (addr : Nat)
deriving DecidableEq, Repr

/-- A diagnostic record: the three header words of an unrecognised command (spec/60_exceptions.md R197). -/
structure DiagRecord where
  opcode : Word
  dest   : Word
  param  : Word
deriving DecidableEq, Repr

/-- What the host or the environment does (spec/70_reset_and_hazards.md R229; log entry 3). The bus accesses carry any port
id; those outside the interface are refused (R117). -/
inductive Event where
  /-- `B(port, value, mask)`: a write to a bus port (spec/30_encoding.md R81) -/
  | busWrite (port : Nat) (value mask : Word)
  /-- a read of a bus port; port 4 is the status read -/
  | busRead (port : Nat)
  /-- `SHW8 a, v` (spec/20_memory.md R54) -/
  | hostWrite8 (addr : Nat) (value : Byte)
  /-- `SHW16 a, v` -/
  | hostWrite16 (addr : Nat) (value : Word)
  /-- a host read of one byte -/
  | hostRead8 (addr : Nat)
  /-- `SHR16 a` -/
  | hostRead16 (addr : Nat)
  /-- `RESET` (spec/70_reset_and_hazards.md R221) -/
  | deviceReset
  /-- the environment changes the configuration switch (spec/10_state.md R29) -/
  | setSwitch (value : Word)
deriving DecidableEq, Repr

/-- What the host gets back (R229; log entry 4). -/
inductive Reply where
  /-- the value a status read returned -/
  | status (value : Word)
  /-- the bytes a shared-memory read returned, `none` where unwritten -/
  | bytes (bs : List (Option Byte))
deriving DecidableEq, Repr

/-- Shared memory as its written bytes, addresses strictly rising (`Memory.wf`); an address that is not listed is unwritten
(spec/10_state.md R31). -/
abbrev Memory := List Host.Cell

/-- The block's state (R20): `hs`, `dec`, `shm`, `store`, `sw`, `fault`, `diag` are the spec's; `cfg` is the configuration
it is built with, which no step writes (log entry 1); `events` and `replies` are the model's own (log entries 3, 4). -/
structure State where
  cfg     : Config
  hs      : Vector Word 4
  dec     : List Byte
  shm     : Memory
  store   : Vector Word 64
  sw      : Word
  fault   : Option Fault
  diag    : List DiagRecord
  events  : List Event
  replies : List Reply
deriving DecidableEq, Repr

/-- `Init(config, RAW, STORE_INIT)` (spec/70_reset_and_hazards.md R220), with the environment's switch value. -/
def State.init (c : Config) (raw : List Byte) (storeInit : Vector Word 64) (switch : Word) : State where
  cfg     := c
  hs      := Vector.replicate 4 0x0000#16
  dec     := decrypt (selectTable c) raw
  shm     := []
  store   := storeInit
  sw      := switch
  fault   := none
  diag    := []
  events  := []
  replies := []

/-- The machine right after reset: initialisation at the launch inputs of log entry 2. -/
def State.reset : State := State.init Config.launch launchRaw launchStore launchSwitch

end Sys2Proof.Machine
end

