-- ==== Sys2Proof/Machine/Ops.lean ====
section
/-! DEFINITION. The named operations over shared memory, the decrypted table, the store, the switch and the cells
(spec/00_scope.md R11), and raising a fault (spec/60_exceptions.md R191), each in one place. -/

namespace Sys2Proof.Machine

/-! ## Shared memory as data -/

/-- The canonical form: addresses strictly rising. An unlisted address reads as unwritten and no entry can say that, so
equal memories are equal lists. -/
def Memory.wf (m : Memory) : Bool := decide (m.Pairwise fun c d => c.1 < d.1)

/-- The byte at an address, `none` where nothing has written it (spec/10_state.md R31). -/
def Memory.read : Memory → Nat → Option Byte
  | [], _ => none
  | c :: m, a => if c.1 = a then some c.2 else Memory.read m a

/-- Write one byte, keeping the addresses rising. -/
def Memory.write : Memory → Nat → Byte → Memory
  | [], a, b => [(a, b)]
  | c :: m, a, b =>
    if a < c.1 then (a, b) :: c :: m
    else if a = c.1 then (a, b) :: m
    else c :: Memory.write m a b

/-- Write bytes at ascending addresses from `a` on. -/
def Memory.writeBytes : Memory → Nat → List Byte → Memory
  | m, _, [] => m
  | m, a, b :: bs => Memory.writeBytes (Memory.write m a b) (a + 1) bs

/-- The `n` bytes from `a` on, or the lowest address among them that is unwritten. -/
def Memory.readBytes (m : Memory) : Nat → Nat → Except Nat (List Byte)
  | _, 0 => .ok []
  | a, n + 1 =>
    match Memory.read m a with
    | none => .error a
    | some b =>
      match Memory.readBytes m (a + 1) n with
      | .error x => .error x
      | .ok bs => .ok (b :: bs)

/-! ## Checked accesses of the core -/

/-- `RangeCheck(a, n)` (spec/42_dispatcher.md R133): the first byte at or above SHM_BYTES is the fault's information. -/
def rangeCheck (c : Config) (a n : Nat) : Except Fault Unit :=
  if a + n > c.shmBytes then .error (.shmRange (max a c.shmBytes)) else .ok ()

/-- The same of the decrypted table (spec/43_protection.md R163). -/
def romCheck (c : Config) (i n : Nat) : Except Fault Unit :=
  if i + n > c.romSize then .error (.romRange (max i c.romSize)) else .ok ()

/-- The `n` bytes from `a` on, all of which must be written; the lowest unwritten one is the fault's information
(spec/20_memory.md R52, spec/42_dispatcher.md R135). -/
def shmBytesAt (m : Memory) (a n : Nat) : Except Fault (List Byte) :=
  match Memory.readBytes m a n with
  | .error x => .error (.uninitRead x)
  | .ok bs => .ok bs

/-- `MemRead(a, 1)` (R52). -/
def memRead8 (s : State) (a : Nat) : Except Fault Byte := do
  rangeCheck s.cfg a 1
  match Memory.read s.shm a with
  | none => .error (.uninitRead a)
  | some b => .ok b

/-- `MemRead(a, 2)`, big-endian (R51, R52): the range first, then the bytes in ascending order. -/
def memRead16 (s : State) (a : Nat) : Except Fault Word := do
  rangeCheck s.cfg a 2
  match Memory.read s.shm a, Memory.read s.shm (a + 1) with
  | some h, some l => .ok (joinBytes h l)
  | none, _ => .error (.uninitRead a)
  | some _, none => .error (.uninitRead (a + 1))

/-- `MemWrite(a, 1, v)` (R53); the caller has checked the range. -/
def memWrite8 (s : State) (a : Nat) (v : Byte) : State :=
  { s with shm := Memory.write s.shm a v }

/-- `MemWrite(a, 2, v)`, big-endian (R53). -/
def memWrite16 (s : State) (a : Nat) (v : Word) : State :=
  { s with shm := Memory.writeBytes s.shm a [hiByte v, loByte v] }

/-- `MemWrite(a + x, 1, bs[x])` for every x in turn: the copy loop of LOADSET (spec/42_dispatcher.md R132) and of PROT
(spec/43_protection.md R162, R163, R165). -/
def memWriteBytes (s : State) (a : Nat) (bs : List Byte) : State :=
  { s with shm := Memory.writeBytes s.shm a bs }

/-! ## Decrypted table -/

/-- `DecRead(i)` (spec/20_memory.md R55), plain byte index. -/
def decRead (s : State) (i : Nat) : Except Fault Byte := do
  romCheck s.cfg i 1
  .ok (s.dec.getD i 0x00#8)

/-- A 16-bit little-endian field of a descriptor (R59). -/
def decReadLE16 (s : State) (i : Nat) : Except Fault Word := do
  let l ← decRead s i
  let h ← decRead s (i + 1)
  .ok (joinBytes h l)

/-- The `n` table bytes from `i` on; the caller has checked the range. -/
def decBytes (s : State) (i n : Nat) : List Byte := (s.dec.drop i).take n

/-! ## Persistent store and switch -/

/-- `StoreRead(k)` for every k in 0..63, in that order (R56; spec/42_dispatcher.md R134). -/
def storeReadAll (s : State) : List Word := s.store.toList

/-- `StoreWrite(k, v[k])` for every k in 0..63 (R56; spec/42_dispatcher.md R135, R138). -/
def storeWriteAll (s : State) (v : Vector Word 64) : State := { s with store := v }

/-- The 128 bytes of the store, words in ascending order, each high byte first (R132). -/
def storeBytes (s : State) : List Byte :=
  (storeReadAll s).flatMap fun w => [hiByte w, loByte w]

/-- `SwRead()` (spec/10_state.md R29). -/
def swRead (s : State) : Word := s.sw

/-! ## Cells, diagnostics, replies -/

/-- `(old & ~m) | (v & m)` (spec/41_handshake.md R111, R112). -/
def merge (old value mask : Word) : Word := (old &&& ~~~mask) ||| (value &&& mask)

/-- The masked write of cell `n` (R111). -/
def writeCell (s : State) (n : Fin 4) (value mask : Word) : State :=
  { s with hs := s.hs.set n (merge s.hs[n] value mask) }

/-- Every cell to 0x0000 (R113; spec/70_reset_and_hazards.md R221). -/
def clearCells (s : State) : State := { s with hs := Vector.replicate 4 0x0000#16 }

/-- `emit Diag{opcode, dest, param}` (spec/60_exceptions.md R197). -/
def emitDiag (s : State) (d : DiagRecord) : State := { s with diag := s.diag ++ [d] }

/-- What the host's read returns (spec/70_reset_and_hazards.md R229). -/
def reply (s : State) (r : Reply) : State := { s with replies := s.replies ++ [r] }

/-! ## Faults -/

/-- `raise F(info)` (spec/60_exceptions.md R191): record the fault, keep the first one, end the event. This is the hardware's
only exception entry; it has no return (R196). -/
def raise (s : State) (f : Fault) : Host.Outcome State Fault Refusal :=
  .next { s with fault := some (s.fault.getD f) }

/-- `require fault = none` (spec/41_handshake.md R111, R116): a faulted state has no step (R191); the outcome repeats the
recorded fault. -/
def whenRunning (s : State) (k : Host.Outcome State Fault Refusal) : Host.Outcome State Fault Refusal :=
  match s.fault with
  | none => k
  | some f => .fault f

/-- All-or-nothing (spec/20_memory.md R58): a command's effect is either its whole new state or the fault of its first failing
check, raised on the state before the command. -/
def commit (s : State) (effect : Except Fault State) : Host.Outcome State Fault Refusal :=
  match effect with
  | .ok t => .next t
  | .error f => raise s f

end Sys2Proof.Machine
end

