-- ==== Sys2Proof/Machine/Operands.lean ====
section
/-! DEFINITION. The header and the operand forms (spec/30_encoding.md R83, R84; spec/42_dispatcher.md R130, R133). -/

namespace Sys2Proof.Machine

/-- The command header (spec/00_scope.md R13). -/
structure Header where
  opcode : Word
  dest   : Word
  param  : Word
deriving DecidableEq, Repr

/-- The header read (R130): the three words in the order 0x10, 0x12, 0x14, all of them at every trigger. -/
def readHeader (s : State) : Except Fault Header := do
  let opcode ← memRead16 s 0x10
  let dest ← memRead16 s 0x12
  let param ← memRead16 s 0x14
  .ok ⟨opcode, dest, param⟩

/-- `D`: the destination as a byte address (R83). -/
def byteDest (dest : Word) : Nat := dest.toNat

/-- `W`: the destination as a word index (R83). -/
def wordIndex (dest : Word) : Nat := dest.toNat >>> 1

/-- `sub = param[7:0]` (R83); `param[15:8]` is ignored. -/
def subCommand (param : Word) : Byte := loByte param

/-- `idx = (sub & 0x3F) * 8`: a byte offset into the descriptor region (R83, spec/43_protection.md R164). -/
def descriptorOffset (sub : Byte) : Nat := (sub &&& 0x3F#8).toNat * 8

/-- An odd `dest_offset` under ODD_DEST_POLICY = FAULT raises ODD_DEST (R84). -/
def oddDestCheck (c : Config) (dest : Word) : Except Fault Unit :=
  if dest.toNat % 2 = 1 ∧ c.oddDest = .fault then .error (.oddDest dest.toNat) else .ok ()

/-- `WordBase(dest)`: the byte address at which a word command starts (R133). -/
def wordBase (c : Config) (dest : Word) : Except Fault Nat := do
  oddDestCheck c dest
  .ok (2 * wordIndex dest)

end Sys2Proof.Machine
end

