-- ==== Sys2Proof/Machine/Flags.lean ====
section
/-! DEFINITION. The block has no flags and no condition codes; the trigger predicate is its only predicate, a pure function of
the cells that is not stored (spec/10_state.md R27). -/

namespace Sys2Proof.Machine

/-- `all_sentinel(hs)` (R27). -/
def allSentinel (hs : Vector Word 4) : Bool :=
  hs[0] == sentinel && hs[1] == sentinel && hs[2] == sentinel && hs[3] == sentinel

end Sys2Proof.Machine
end

