-- ==== Sys2Proof/Machine/Protection.lean ====
section
/-! DEFINITION. The protection data provider, command 0x04 (spec/43_protection.md R160 to R170). -/

namespace Sys2Proof.Machine

/-- `profile.overrides(sub)`, keyed by the whole sub-command byte (R161). -/
def overrideFor (p : Profile) (sub : Byte) : Option (List Byte) := p.overrides.lookup sub

/-- A descriptor's two used fields (spec/20_memory.md R59). -/
structure Descriptor where
  start : Word
  len   : Word
deriving DecidableEq, Repr

/-- The descriptor of a sub-command (R163): all of its 8 bytes lie in the table; bytes 0-1 and 6-7 affect nothing. -/
def readDescriptor (s : State) (sub : Byte) : Except Fault Descriptor := do
  romCheck s.cfg (s.cfg.descBase + descriptorOffset sub) 8
  let start ← decReadLE16 s (s.cfg.descBase + descriptorOffset sub + 2)
  let len ← decReadLE16 s (s.cfg.descBase + descriptorOffset sub + 4)
  .ok ⟨start, len⟩

/-- The payload of a descriptor bound for byte address `d` (R163): an empty one checks neither range (R166). -/
def descriptorPayload (s : State) (d : Nat) (k : Descriptor) : Except Fault (List Byte) :=
  if k.len.toNat = 0 then .ok []
  else do
    romCheck s.cfg (s.cfg.payloadBase + k.start.toNat) k.len.toNat
    rangeCheck s.cfg d k.len.toNat
    .ok (decBytes s (s.cfg.payloadBase + k.start.toNat) k.len.toNat)

/-- DESCRIPTOR(D, sub) up to its writes (R163). -/
def descriptorResponse (s : State) (d : Nat) (sub : Byte) : Except Fault (List Byte) := do
  let k ← readDescriptor s sub
  descriptorPayload s d k

/-- OVERRIDE(D, L) up to its writes (R162): an empty literal checks nothing. -/
def overrideResponse (s : State) (d : Nat) (lit : List Byte) : Except Fault (List Byte) :=
  if lit.length = 0 then .ok []
  else do
    rangeCheck s.cfg d lit.length
    .ok lit

/-- The bytes of the response, in stream order: the override first, the descriptor only when there is none (R161). -/
def protResponse (s : State) (d : Nat) (sub : Byte) : Except Fault (List Byte) :=
  match overrideFor s.cfg.profile sub with
  | some lit => overrideResponse s d lit
  | none => descriptorResponse s d sub

/-- PROT(dest, sub) (R160): stream byte x goes to byte address D + x (R165). -/
def protEffect (s : State) (dest : Word) (sub : Byte) : Except Fault State := do
  oddDestCheck s.cfg dest
  let bytes ← protResponse s (byteDest dest) sub
  .ok (memWriteBytes s (byteDest dest) bytes)

/-- PROT (R160). The qualifier and `param[15:8]` are ignored (spec/30_encoding.md R83, R86). -/
def execProt (_qual : Byte) (dest param : Word) (s : State) : Host.Outcome State Fault Refusal :=
  whenRunning s (commit s (protEffect s dest (subCommand param)))

end Sys2Proof.Machine
end

