-- ==== Sys2Proof/Machine/Settings.lean ====
section
/-! DEFINITION. The settings commands and the unrecognised command (spec/42_dispatcher.md R132 to R144). Each meaning is the
command's body as the dispatcher runs it (R130). -/

namespace Sys2Proof.Machine

/-- LOADSET (R132): the destination, the range, then the copy of the store's 128 bytes. -/
def loadsetEffect (s : State) (dest : Word) : Except Fault State := do
  let base ← wordBase s.cfg dest
  rangeCheck s.cfg base 128
  .ok (memWriteBytes s base (storeBytes s))

/-- The 64 words of 128 bytes, each high byte first (R135). -/
def wordsOfBytes (bytes : List Byte) : Vector Word 64 :=
  Vector.ofFn fun k => joinBytes (bytes.getD (2 * k) 0x00#8) (bytes.getD (2 * k + 1) 0x00#8)

/-- SAVESET (R135): the destination, the range, every byte written, then the 64 store writes, high byte first. -/
def savesetEffect (s : State) (dest : Word) : Except Fault State := do
  let base ← wordBase s.cfg dest
  rangeCheck s.cfg base 128
  let bytes ← shmBytesAt s.shm base 128
  .ok (storeWriteAll s (wordsOfBytes bytes))

/-- FACTDEF (R138): the profile's defaults, or no effect (spec/30_encoding.md R88). -/
def factdefEffect (s : State) : State :=
  match s.cfg.profile.factoryDefaults with
  | some fd => storeWriteAll s fd
  | none => s

/-- RDSW (R141): one word. -/
def rdswEffect (s : State) (dest : Word) : Except Fault State := do
  let base ← wordBase s.cfg dest
  rangeCheck s.cfg base 2
  .ok (memWrite16 s base (swRead s))

/-- LOADSET (R132). The qualifier and `param` are ignored (spec/30_encoding.md R83, R86). -/
def execLoadset (_qual : Byte) (dest _param : Word) (s : State) : Host.Outcome State Fault Refusal :=
  whenRunning s (commit s (loadsetEffect s dest))

/-- SAVESET (R135). -/
def execSaveset (_qual : Byte) (dest _param : Word) (s : State) : Host.Outcome State Fault Refusal :=
  whenRunning s (commit s (savesetEffect s dest))

/-- FACTDEF (R138); `dest` is ignored too. -/
def execFactdef (_qual : Byte) (_dest _param : Word) (s : State) : Host.Outcome State Fault Refusal :=
  whenRunning s (.next (factdefEffect s))

/-- RDSW (R141). -/
def execRdsw (_qual : Byte) (dest _param : Word) (s : State) : Host.Outcome State Fault Refusal :=
  whenRunning s (commit s (rdswEffect s dest))

/-- UNRECOGNISED (R144): one diagnostic record. -/
def execUnrecognised (opcode dest param : Word) (s : State) : Host.Outcome State Fault Refusal :=
  whenRunning s (.next (emitDiag s ⟨opcode, dest, param⟩))

end Sys2Proof.Machine
end

