-- ==== Sys2Proof/Machine/Handshake.lean ====
section
/-! DEFINITION. The command dispatcher (spec/42_dispatcher.md R130), the trigger and the bus events (spec/41_handshake.md R111 to
R116). -/

namespace Sys2Proof.Machine

/-- The dispatcher's routing (R130, spec/30_encoding.md R85): the meaning of the command the header stands for. -/
def routeCommand (h : Header) (s : State) : Host.Outcome State Fault Refusal :=
  match routeOp h.opcode with
  | .loadset => execLoadset (loByte h.opcode) h.dest h.param s
  | .rdsw => execRdsw (loByte h.opcode) h.dest h.param s
  | .prot => execProt (loByte h.opcode) h.dest h.param s
  | .saveset => execSaveset (loByte h.opcode) h.dest h.param s
  | .factdef => execFactdef (loByte h.opcode) h.dest h.param s
  | .unrecognised => execUnrecognised h.opcode h.dest h.param s

/-- `Dispatch()` (R130): the whole header first, then the command. -/
def dispatch (s : State) : Host.Outcome State Fault Refusal :=
  match readHeader s with
  | .error f => raise s f
  | .ok h => routeCommand h s

/-- `Trigger()` (R113): reset, then dispatch, one atomic unit. -/
def trigger (s : State) : Host.Outcome State Fault Refusal := dispatch (clearCells s)

/-- `HSW(n, v, m)` (R111): merge, then the check on the final merged state (R114). -/
def handshakeWrite (n : Fin 4) (value mask : Word) (s : State) : Host.Outcome State Fault Refusal :=
  whenRunning s <|
    if allSentinel (writeCell s n value mask).hs then trigger (writeCell s n value mask)
    else .next (writeCell s n value mask)

/-- HSW0 (R111). -/
def execHsw0 (value mask : Word) (s : State) : Host.Outcome State Fault Refusal := handshakeWrite 0 value mask s

/-- HSW1 (R111). -/
def execHsw1 (value mask : Word) (s : State) : Host.Outcome State Fault Refusal := handshakeWrite 1 value mask s

/-- HSW2 (R111). -/
def execHsw2 (value mask : Word) (s : State) : Host.Outcome State Fault Refusal := handshakeWrite 2 value mask s

/-- HSW3 (R111). -/
def execHsw3 (value mask : Word) (s : State) : Host.Outcome State Fault Refusal := handshakeWrite 3 value mask s

/-- STATRD (R116): the host gets STATUS_VALUE back; nothing else changes. -/
def execStatrd (s : State) : Host.Outcome State Fault Refusal :=
  whenRunning s (.next (reply s (.status s.cfg.statusValue)))

end Sys2Proof.Machine
end

