-- ==== Sys2Proof/Machine/Dispatch.lean ====
section
/-! DEFINITION. One arm per instruction, one meaning per arm. -/

namespace Sys2Proof.Machine

def exec (i : Instr) (s : State) : Host.Outcome State Fault Refusal :=
  match i with
  | .loadset qual dest param => Sys2Proof.Machine.execLoadset qual dest param s
  | .rdsw qual dest param => Sys2Proof.Machine.execRdsw qual dest param s
  | .prot qual dest param => Sys2Proof.Machine.execProt qual dest param s
  | .saveset qual dest param => Sys2Proof.Machine.execSaveset qual dest param s
  | .factdef qual dest param => Sys2Proof.Machine.execFactdef qual dest param s
  | .unrecognised opcode dest param => Sys2Proof.Machine.execUnrecognised opcode dest param s
  | .hsw0 value mask => Sys2Proof.Machine.execHsw0 value mask s
  | .hsw1 value mask => Sys2Proof.Machine.execHsw1 value mask s
  | .hsw2 value mask => Sys2Proof.Machine.execHsw2 value mask s
  | .hsw3 value mask => Sys2Proof.Machine.execHsw3 value mask s
  | .statrd => Sys2Proof.Machine.execStatrd s

end Sys2Proof.Machine
end

