-- ==== Sys2Proof/Machine/HostEvents.lean ====
section
/-! DEFINITION. The events that are no rows of the opcode table (host shared-memory accesses, device reset, the switch), the
meaning of one event, and the pseudo-instructions (spec/20_memory.md R54, spec/70_reset_and_hazards.md R221, R229,
spec/30_encoding.md R91). -/

namespace Sys2Proof.Machine

/-- A host access to `n` bytes from `a` on (R54): refused at or above SHM_BYTES, and at an odd address for a word. -/
def hostAccess (s : State) (a n : Nat) (t : State) : Host.Outcome State Fault Refusal :=
  if n = 2 ∧ a % 2 = 1 then .refused (.hostUnaligned a)
  else if a + n > s.cfg.shmBytes then .refused (.hostOutOfRange a)
  else .next t

/-- `HostWrite(a, 1, v)` (R54). -/
def hostWrite8 (a : Nat) (v : Byte) (s : State) : Host.Outcome State Fault Refusal :=
  hostAccess s a 1 (memWrite8 s a v)

/-- `HostWrite(a, 2, v)` (R54). -/
def hostWrite16 (a : Nat) (v : Word) (s : State) : Host.Outcome State Fault Refusal :=
  hostAccess s a 2 (memWrite16 s a v)

/-- `HostRead(a, 1)` (R54): an unwritten byte reads back as `none`. -/
def hostRead8 (a : Nat) (s : State) : Host.Outcome State Fault Refusal :=
  hostAccess s a 1 (reply s (.bytes [Memory.read s.shm a]))

/-- `HostRead(a, 2)` (R54). -/
def hostRead16 (a : Nat) (s : State) : Host.Outcome State Fault Refusal :=
  hostAccess s a 2 (reply s (.bytes [Memory.read s.shm a, Memory.read s.shm (a + 1)]))

/-- `RESET` (R221): the cells, and nothing else. -/
def deviceReset (s : State) : Host.Outcome State Fault Refusal := .next (clearCells s)

/-- The environment changes the switch (spec/10_state.md R29). -/
def setSwitch (v : Word) (s : State) : Host.Outcome State Fault Refusal := .next { s with sw := v }

/-- A bus access: the instruction it decodes to, or a refusal (spec/41_handshake.md R117). -/
def busAccess (d : Except Reject Instr) (s : State) : Host.Outcome State Fault Refusal :=
  match d with
  | .ok i => exec i s
  | .error r => .refused (.rejected r)

/-- One event (R229). -/
def runEvent (e : Event) (s : State) : Host.Outcome State Fault Refusal :=
  match e with
  | .busWrite port value mask => busAccess (decodeBusWrite port value mask) s
  | .busRead port => busAccess (decodeBusRead port) s
  | .hostWrite8 a v => hostWrite8 a v s
  | .hostWrite16 a v => hostWrite16 a v s
  | .hostRead8 a => hostRead8 a s
  | .hostRead16 a => hostRead16 a s
  | .deviceReset => deviceReset s
  | .setSwitch v => setSwitch v s

/-- The next event issued, with the state it acts on: every event is taken once, in order (spec/20_memory.md R65); a faulted
state takes none (spec/60_exceptions.md R191). -/
def nextEvent (s : State) : Host.Outcome State Fault Refusal :=
  whenRunning s <|
    match s.events with
    | [] => .refused .noEvent
    | e :: es => runEvent e { s with events := es }

/-- The four handshake writes that complete a pattern from cleared cells (spec/30_encoding.md R91). -/
def sentinelWrites : List Event :=
  [.busWrite 0 sentinel sentinel, .busWrite 1 sentinel sentinel, .busWrite 2 sentinel sentinel,
    .busWrite 3 sentinel sentinel]

/-- The pseudo-instruction `CMD` (R91) for a header of three words. -/
def cmdEvents (opcode dest param : Word) : List Event :=
  [.hostWrite16 0x10 opcode, .hostWrite16 0x12 dest, .hostWrite16 0x14 param] ++ sentinelWrites

/-- The event of an instruction word of format BUS: port 4 is read, every other port written (R81). -/
def busEvent (port : Nat) (value mask : Word) : Event :=
  if port = 4 then .busRead port else .busWrite port value mask

/-- Place an instruction given in the opcode table's numbering so that the next event runs it (log entry 8): a bus event is
put first in line; a command is put in the header, with the cells one write short of the pattern and that write first in
line. -/
def placeTableWord (s : State) (nbits w : Nat) : State :=
  match tableFormat nbits with
  | .bus =>
    { s with events := busEvent (tableWord w 0).toNat (tableWord w 1) (tableWord w 2) :: s.events }
  | .cmd =>
    { s with
      shm := Memory.writeBytes s.shm 0x10 (tableBytes w)
      hs := #v[sentinel, sentinel, sentinel, 0x0000#16]
      events := .busWrite 3 sentinel sentinel :: s.events }

end Sys2Proof.Machine
end

