-- ==== Sys2Proof/Machine/Step.lean ====
section
/-! DEFINITION. One step is one event (spec/10_state.md R26, D1). -/

namespace Sys2Proof.Machine

/-- Take the next event. -/
def step (s : State) : Host.Outcome State Fault Refusal := nextEvent s

/-- `s` with an instruction of the opcode table placed where the next step takes it. -/
def State.withFetchWord (s : State) (nbits w : Nat) : State := placeTableWord s nbits w

end Sys2Proof.Machine
end

