-- ==== Sys2Proof/Safety.lean ====
section
/-! DEFINITION. What a good state, a finished run and its observation are. -/

namespace Sys2Proof.Machine

/-- The invariant of the block: the configuration is legal (spec/00_scope.md R8), shared memory is canonical and lies below
SHM_BYTES (spec/10_state.md R31), the decrypted table has ROM_SIZE bytes (R28), and at least one cell differs from the sentinel
(R23). -/
abbrev State.Inv (s : State) : Prop :=
  s.cfg.wf = true ∧ Memory.wf s.shm = true ∧ (∀ c ∈ s.shm, c.1 < s.cfg.shmBytes) ∧
    s.dec.length = s.cfg.romSize ∧ allSentinel s.hs = false

/-- `k` steps, ending early at the first fault or refusal: the run of `Host.Core` on this machine, in the machine's own types. -/
def runSteps : Nat → State → Host.Outcome State Fault Refusal
  | 0, s => .next s
  | k + 1, s =>
    match step s with
    | .next t => runSteps k t
    | .fault f => .fault f
    | .refused r => .refused r

/-- A run has ended well: the host issues no further event and no fault is recorded (spec/70_reset_and_hazards.md R228). -/
abbrev State.EndedWell (s : State) : Prop := s.events = [] ∧ s.fault = none

/-- The observation of a run (R228). -/
structure Observation where
  shm     : Memory
  store   : Vector Word 64
  diag    : List DiagRecord
  hs      : Vector Word 4
  replies : List Reply
deriving DecidableEq, Repr

/-- What a final state shows (R228). -/
def State.observe (s : State) : Observation := ⟨s.shm, s.store, s.diag, s.hs, s.replies⟩

end Sys2Proof.Machine
end

