-- ==== Sys2Proof/Certificates/Slice0/Obligations.lean ====
section
/-! DEFINITION. The statements for the provers; each docstring names the rule of spec/ it comes from. -/

open Sys2Proof Sys2Proof.Machine

/-! ## Encoding -/

/-- Decode of encode is the instruction, with every operand at every value, whatever bytes follow (spec/30_encoding.md R81,
R82, R85). The byte layout of a bus event is the model's own (log entry 7). -/
def Obligations.DecodeOfEncodedBytesIsTheInstruction : Prop :=
  ∀ (i : Instr) (rest : List Byte), i.wf = true → decodeBytes i.format (encode i ++ rest) = .ok (i, rest)

/-- Every three header words are a well-formed command that encodes back to them: no encoding is illegal and no bit is
dropped (spec/30_encoding.md R82, R87). -/
def Obligations.EveryHeaderIsACommandThatEncodesBack : Prop :=
  ∀ opcode dest param : Word,
    (decodeHeader opcode dest param).wf = true ∧ (decodeHeader opcode dest param).format = .cmd ∧
      encodeWords (decodeHeader opcode dest param) = (opcode, dest, param)

/-- The opcode map of the commands and the ports of the bus events (spec/30_encoding.md R85). -/
def Obligations.DecodingFollowsTheOpcodeMap : Prop :=
  ∀ (op qual : Byte) (dest param : Word),
    (op = 0x02#8 → decodeHeader (op ++ qual) dest param = .loadset qual dest param) ∧
    (op = 0x03#8 → decodeHeader (op ++ qual) dest param = .rdsw qual dest param) ∧
    (op = 0x04#8 → decodeHeader (op ++ qual) dest param = .prot qual dest param) ∧
    (op = 0x42#8 → decodeHeader (op ++ qual) dest param = .saveset qual dest param) ∧
    (op = 0x43#8 → decodeHeader (op ++ qual) dest param = .factdef qual dest param) ∧
    (op ∉ ([0x02#8, 0x03#8, 0x04#8, 0x42#8, 0x43#8] : List Byte) →
      decodeHeader (op ++ qual) dest param = .unrecognised (op ++ qual) dest param) ∧
    (∀ (n : Fin 4) (v m : Word), decodeBusWrite n v m = .ok (.hsw n v m)) ∧ decodeBusRead 4 = .ok .statrd

/-- One word for each row of spec/opcode_table.json decodes to its row's instruction. The spec gives the opcode word's fields,
the header's three words and the port ids (spec/30_encoding.md R81, R82, R85). The layout of the whole word is the model's own
choice (DESIGN CHOICE, log entry 7): 8-bit words are bus events and others commands; a command's destination lies in bits 31..16
and its parameter in bits 47..32, above the opcode word; a bus event's port id lies in bits 15..0, its value in bits 31..16 and
its mask in bits 47..32. -/
def Obligations.TableWordsDecodeToTheirInstructions : Prop :=
  decodeTableWord 16 0x0200 = some (.loadset 0x00 0x0000 0x0000) ∧
  decodeTableWord 16 0x03FF = some (.rdsw 0xFF 0x0000 0x0000) ∧
  decodeTableWord 16 0x000503000400 = some (.prot 0x00 0x0300 0x0005) ∧
  decodeTableWord 16 0x42A5 = some (.saveset 0xA5 0x0000 0x0000) ∧
  decodeTableWord 16 0x4300 = some (.factdef 0x00 0x0000 0x0000) ∧
  decodeTableWord 16 0x4400 = some (.unrecognised 0x4400 0x0000 0x0000) ∧
  decodeTableWord 8 0 = some (.hsw0 0x0000 0x0000) ∧
  decodeTableWord 8 1 = some (.hsw1 0x0000 0x0000) ∧
  decodeTableWord 8 0x00FF12340002 = some (.hsw2 0x1234 0x00FF) ∧
  decodeTableWord 8 3 = some (.hsw3 0x0000 0x0000) ∧
  decodeTableWord 8 4 = some .statrd ∧ decodeTableWord 8 5 = none

/-- The qualifier byte selects nothing and changes no result (spec/30_encoding.md R86). An unrecognised command's own record
holds the opcode word whole (R144); nothing else of its result depends on the qualifier. -/
def Obligations.TheQualifierChangesNoResult : Prop :=
  ∀ (op qual qual' : Byte) (dest param : Word) (s : State),
    routeOp (op ++ qual) = routeOp (op ++ qual') ∧
    (op ∈ ([0x02#8, 0x03#8, 0x04#8, 0x42#8, 0x43#8] : List Byte) →
      exec (decodeHeader (op ++ qual) dest param) s = exec (decodeHeader (op ++ qual') dest param) s) ∧
    (op ∉ ([0x02#8, 0x03#8, 0x04#8, 0x42#8, 0x43#8] : List Byte) → ∀ t, exec (decodeHeader (op ++ qual) dest param) s = .next t →
      exec (decodeHeader (op ++ qual') dest param) s = .next { t with diag := s.diag ++ [⟨op ++ qual', dest, param⟩] })

/-! ## The step -/

/-- A step runs the instruction that the pending bus access decodes to, on the state with the event taken
(spec/10_state.md R26, spec/30_encoding.md R80; the list of events is the model's own, log entry 3). -/
def Obligations.StepRunsTheDecodedBusAccess : Prop :=
  ∀ (s : State) (e : Event) (es : List Event) (i : Instr), s.fault = none → s.events = e :: es →
    ((∃ p v m, e = .busWrite p v m ∧ decodeBusWrite p v m = .ok i) ∨ (∃ p, e = .busRead p ∧ decodeBusRead p = .ok i)) →
    step s = exec i { s with events := es }

/-- A dispatch reads the three header words and runs the command they decode to; the first unwritten byte of the header
faults, whatever the command (spec/42_dispatcher.md R130).
The faults are the spec's own (R190; log entry 15). -/
def Obligations.DispatchRunsTheDecodedHeader : Prop :=
  ∀ s : State, s.fault = none → 0x16 ≤ s.cfg.shmBytes →
    (∀ b0 b1 b2 b3 b4 b5 : Byte,
      Memory.read s.shm 0x10 = some b0 → Memory.read s.shm 0x11 = some b1 → Memory.read s.shm 0x12 = some b2 →
      Memory.read s.shm 0x13 = some b3 → Memory.read s.shm 0x14 = some b4 → Memory.read s.shm 0x15 = some b5 →
      dispatch s = exec (decodeHeader (b0 ++ b1) (b2 ++ b3) (b4 ++ b5)) s) ∧
    ∀ k < 6, Memory.read s.shm (0x10 + k) = none → (∀ j < k, (Memory.read s.shm (0x10 + j)).isSome = true) →
      dispatch s = .next { s with fault := some (.uninitRead (0x10 + k)) }

/-- The instruction placed for the next step is the one the decoder reads, and the step runs exactly it; a command runs with
its header in memory and the cells cleared, as a trigger runs it (the model's own placing, log entry 8). -/
def Obligations.FetchWordRunsTheDecodedInstruction : Prop :=
  ∀ (s : State) (nbits w : Nat) (i : Instr), s.fault = none → 0x16 ≤ s.cfg.shmBytes → decodeTableWord nbits w = some i →
    (i.format = .bus → step (s.withFetchWord nbits w) = exec i s) ∧
    (i.format = .cmd → step (s.withFetchWord nbits w) =
      exec i { s with shm := Memory.writeBytes s.shm 0x10 (tableBytes w), hs := Vector.replicate 4 0x0000#16 })

/-- The pseudo-instruction CMD, issued on cleared cells, leaves what its command leaves on a state whose header holds the
three words (spec/30_encoding.md R91). -/
def Obligations.CmdEventsRunTheCommand : Prop :=
  ∀ (s : State) (opcode dest param : Word) (es : List Event), s.fault = none → 0x16 ≤ s.cfg.shmBytes →
    s.hs = Vector.replicate 4 0x0000#16 →
    runSteps 7 { s with events := cmdEvents opcode dest param ++ es } =
      exec (decodeHeader opcode dest param) { s with
        shm := Memory.writeBytes s.shm 0x10
          [hiByte opcode, loByte opcode, hiByte dest, loByte dest, hiByte param, loByte param]
        events := es }

/-- Each step takes the first event and no other, and the replies only grow (spec/20_memory.md R65). -/
def Obligations.EventsAreTakenOnceInOrder : Prop :=
  ∀ s t : State, step s = .next t → (∃ e, s.events = e :: t.events) ∧ ∃ rs, t.replies = s.replies ++ rs

/-- A read of port 0..3, a write to port 4 and an access to any other port id have no step (spec/41_handshake.md R117). -/
def Obligations.AccessesOutsideTheInterfaceAreRefused : Prop :=
  ∀ (s : State) (es : List Event) (p : Nat) (v m : Word), s.fault = none →
    (p < 4 → s.events = .busRead p :: es → step s = .refused (.rejected (.handshakeRead p))) ∧
    (s.events = .busWrite 4 v m :: es → step s = .refused (.rejected .statusWrite)) ∧
    (4 < p → s.events = .busRead p :: es ∨ s.events = .busWrite p v m :: es →
      step s = .refused (.rejected (.noSuchPort p)))

/-! ## The handshake gate -/

/-- STATRD returns STATUS_VALUE, changes nothing, and has no step in a faulted state (spec/41_handshake.md R116). What the
host gets back is the model's own list of replies (log entry 4). -/
def Obligations.StatusReadReturnsTheStatusValue : Prop :=
  ∀ s : State,
    (s.fault = none → exec .statrd s = .next { s with replies := s.replies ++ [.status s.cfg.statusValue] }) ∧
    ∀ f, s.fault = some f → exec .statrd s = .fault f

/-- HSW0 to HSW3 whose merged cells are not all the sentinel: bit i of the cell becomes the value's where the mask has a 1
and keeps its old value elsewhere, for every mask; the other cells and all else stay (spec/41_handshake.md R112, R115). -/
def Obligations.HandshakeWriteMergesBitwise : Prop :=
  ∀ (s : State) (n : Fin 4) (v m : Word), s.fault = none →
    ((∃ k, k ≠ n ∧ s.hs[k] ≠ 0xFFFF#16) ∨
      ∃ i < 16, (if m.getLsbD i then v.getLsbD i else s.hs[n].getLsbD i) = false) →
    ∃ t, exec (.hsw n v m) s = .next t ∧ t = { s with hs := t.hs } ∧
      (∀ i < 16, t.hs[n].getLsbD i = if m.getLsbD i then v.getLsbD i else s.hs[n].getLsbD i) ∧
      ∀ k, k ≠ n → t.hs[k] = s.hs[k]

/-- The handshake write that completes the pattern clears the cells, then dispatches, in the same event; the cells are
0x0000 afterwards, even if the dispatch faults (spec/41_handshake.md R113). -/
def Obligations.CompletingWriteResetsThenDispatches : Prop :=
  ∀ (s : State) (n : Fin 4) (v m : Word), s.fault = none → (∀ k, k ≠ n → s.hs[k] = 0xFFFF#16) →
    (∀ i < 16, (if m.getLsbD i then v.getLsbD i else s.hs[n].getLsbD i) = true) →
    exec (.hsw n v m) s = dispatch { s with hs := Vector.replicate 4 0x0000#16 } ∧
      ∀ t, exec (.hsw n v m) s = .next t → t.hs = Vector.replicate 4 0x0000#16

/-- From cleared cells the four full sentinel writes, in any order, dispatch exactly once, at the last of them
(spec/41_handshake.md R114). -/
def Obligations.FourSentinelWritesInAnyOrderDispatchOnce : Prop :=
  ∀ (s : State) (order : List (Fin 4)) (es : List Event), s.fault = none → s.hs = Vector.replicate 4 0x0000#16 →
    order.Perm [0, 1, 2, 3] →
    runSteps 4
        { s with events := (order.map fun n : Fin 4 => Event.busWrite n.val 0xFFFF#16 0xFFFF#16) ++ es } =
      dispatch { s with events := es }

/-- A partial handshake persists: an event that is neither a device reset, nor a write to the cell's own port, nor the write
that completes the pattern, leaves the cell (spec/10_state.md R22). -/
def Obligations.PartialHandshakePersists : Prop :=
  ∀ (s t : State) (e : Event) (k j : Fin 4), step s = .next t → s.events.head? = some e → e ≠ .deviceReset →
    (∀ v m, e ≠ .busWrite k v m) → s.hs[j] ≠ 0xFFFF#16 → (∀ v m, e ≠ .busWrite j v m) → t.hs[k] = s.hs[k]

/-- After every completed event at least one cell differs from 0xFFFF, if one did before; at initialisation all four do
(spec/10_state.md R23). -/
def Obligations.CellsNeverRestAtTheFullPattern : Prop :=
  (∀ s t : State, step s = .next t → (∃ k : Fin 4, s.hs[k] ≠ 0xFFFF#16) → ∃ k : Fin 4, t.hs[k] ≠ 0xFFFF#16) ∧
    ∀ (c : Config) (raw : List Byte) (st : Vector Word 64) (sw : Word) (k : Fin 4),
      (State.init c raw st sw).hs[k] = 0x0000#16

/-- The header is not cleared: an unrecognised command triggered twice with no new header appends its record twice
(spec/42_dispatcher.md R131, R144). -/
def Obligations.SecondTriggerRunsTheSameHeader : Prop :=
  ∀ (s : State) (op qual b2 b3 b4 b5 : Byte) (es : List Event), s.fault = none → 0x16 ≤ s.cfg.shmBytes →
    s.hs = Vector.replicate 4 0x0000#16 → op ∉ ([0x02#8, 0x03#8, 0x04#8, 0x42#8, 0x43#8] : List Byte) →
    Memory.read s.shm 0x10 = some op → Memory.read s.shm 0x11 = some qual → Memory.read s.shm 0x12 = some b2 →
    Memory.read s.shm 0x13 = some b3 → Memory.read s.shm 0x14 = some b4 → Memory.read s.shm 0x15 = some b5 →
    runSteps 8 { s with events := sentinelWrites ++ sentinelWrites ++ es } =
      .next { s with
        diag := s.diag ++ [⟨op ++ qual, b2 ++ b3, b4 ++ b5⟩, ⟨op ++ qual, b2 ++ b3, b4 ++ b5⟩]
        events := es }

/-! ## The commands -/

/-- LOADSET (spec/42_dispatcher.md R132): ODD_DEST, SHM_RANGE, or the 64 store words at 2·W, high byte first, and no other
byte and nothing else.
The faults are the spec's own (R190; log entry 15). -/
def Obligations.LoadsetCopiesTheStoreToSharedMemory : Prop :=
  ∀ (s : State) (qual : Byte) (dest param : Word), s.fault = none →
    (dest.toNat % 2 = 1 ∧ s.cfg.oddDest = .fault →
      exec (.loadset qual dest param) s = .next { s with fault := some (.oddDest dest.toNat) }) ∧
    (¬(dest.toNat % 2 = 1 ∧ s.cfg.oddDest = .fault) → s.cfg.shmBytes < 2 * wordIndex dest + 128 →
      exec (.loadset qual dest param) s =
        .next { s with fault := some (.shmRange (max (2 * wordIndex dest) s.cfg.shmBytes)) }) ∧
    (¬(dest.toNat % 2 = 1 ∧ s.cfg.oddDest = .fault) → 2 * wordIndex dest + 128 ≤ s.cfg.shmBytes →
      ∃ t, exec (.loadset qual dest param) s = .next t ∧ t = { s with shm := t.shm } ∧
        (∀ k : Fin 64,
          Memory.read t.shm (2 * wordIndex dest + 2 * k) = some (s.store[k].extractLsb' 8 8) ∧
          Memory.read t.shm (2 * wordIndex dest + 2 * k + 1) = some (s.store[k].extractLsb' 0 8)) ∧
        ∀ a, a < 2 * wordIndex dest ∨ 2 * wordIndex dest + 128 ≤ a → Memory.read t.shm a = Memory.read s.shm a)

/-- SAVESET (spec/42_dispatcher.md R135): ODD_DEST, SHM_RANGE, UNINIT_READ of the lowest unwritten byte of the 128, or the 64
store words, high byte first, and nothing else.
The faults are the spec's own (R190; log entry 15). -/
def Obligations.SavesetCopiesSharedMemoryToTheStore : Prop :=
  ∀ (s : State) (qual : Byte) (dest param : Word), s.fault = none →
    (dest.toNat % 2 = 1 ∧ s.cfg.oddDest = .fault →
      exec (.saveset qual dest param) s = .next { s with fault := some (.oddDest dest.toNat) }) ∧
    (¬(dest.toNat % 2 = 1 ∧ s.cfg.oddDest = .fault) → s.cfg.shmBytes < 2 * wordIndex dest + 128 →
      exec (.saveset qual dest param) s =
        .next { s with fault := some (.shmRange (max (2 * wordIndex dest) s.cfg.shmBytes)) }) ∧
    (¬(dest.toNat % 2 = 1 ∧ s.cfg.oddDest = .fault) → 2 * wordIndex dest + 128 ≤ s.cfg.shmBytes →
      (∀ j < 128, Memory.read s.shm (2 * wordIndex dest + j) = none →
        (∀ i < j, (Memory.read s.shm (2 * wordIndex dest + i)).isSome = true) →
        exec (.saveset qual dest param) s = .next { s with fault := some (.uninitRead (2 * wordIndex dest + j)) }) ∧
      ((∀ j < 128, (Memory.read s.shm (2 * wordIndex dest + j)).isSome = true) →
        ∃ t, exec (.saveset qual dest param) s = .next t ∧ t = { s with store := t.store } ∧
          ∀ (k : Fin 64) (h l : Byte), Memory.read s.shm (2 * wordIndex dest + 2 * k) = some h →
            Memory.read s.shm (2 * wordIndex dest + 2 * k + 1) = some l → t.store[k] = h ++ l))

/-- FACTDEF (spec/42_dispatcher.md R138): the profile's defaults to the store, or no effect; no fault in either case. -/
def Obligations.FactdefRestoresTheProfilesDefaults : Prop :=
  ∀ (s : State) (qual : Byte) (dest param : Word), s.fault = none →
    (∀ fd, s.cfg.profile.factoryDefaults = some fd → exec (.factdef qual dest param) s = .next { s with store := fd }) ∧
    (s.cfg.profile.factoryDefaults = none → exec (.factdef qual dest param) s = .next s)

/-- RDSW (spec/42_dispatcher.md R141, R142): ODD_DEST, SHM_RANGE, or the switch's word at 2·W, high byte first, and no other
byte and nothing else.
The faults are the spec's own (R190; log entry 15). -/
def Obligations.RdswWritesExactlyTheSwitchWord : Prop :=
  ∀ (s : State) (qual : Byte) (dest param : Word), s.fault = none →
    (dest.toNat % 2 = 1 ∧ s.cfg.oddDest = .fault →
      exec (.rdsw qual dest param) s = .next { s with fault := some (.oddDest dest.toNat) }) ∧
    (¬(dest.toNat % 2 = 1 ∧ s.cfg.oddDest = .fault) → s.cfg.shmBytes < 2 * wordIndex dest + 2 →
      exec (.rdsw qual dest param) s =
        .next { s with fault := some (.shmRange (max (2 * wordIndex dest) s.cfg.shmBytes)) }) ∧
    (¬(dest.toNat % 2 = 1 ∧ s.cfg.oddDest = .fault) → 2 * wordIndex dest + 2 ≤ s.cfg.shmBytes →
      ∃ t, exec (.rdsw qual dest param) s = .next t ∧ t = { s with shm := t.shm } ∧
        Memory.read t.shm (2 * wordIndex dest) = some (s.sw.extractLsb' 8 8) ∧
        Memory.read t.shm (2 * wordIndex dest + 1) = some (s.sw.extractLsb' 0 8) ∧
        ∀ a, a ≠ 2 * wordIndex dest → a ≠ 2 * wordIndex dest + 1 → Memory.read t.shm a = Memory.read s.shm a)

/-- UNRECOGNISED (spec/42_dispatcher.md R144): every header whose high byte is none of the five appends one record of its
three words, changes nothing else and raises no fault, an odd destination included. -/
def Obligations.UnrecognisedOpcodeOnlyAppendsARecord : Prop :=
  ∀ (s : State) (opcode dest param : Word), s.fault = none →
    opcode.extractLsb' 8 8 ∉ ([0x02#8, 0x03#8, 0x04#8, 0x42#8, 0x43#8] : List Byte) →
    decodeHeader opcode dest param = .unrecognised opcode dest param ∧
      exec (.unrecognised opcode dest param) s = .next { s with diag := s.diag ++ [⟨opcode, dest, param⟩] }

/-- PROT with an override (spec/43_protection.md R162): an empty literal does nothing and checks nothing; else SHM_RANGE, or
byte x of the literal at D + x, and no other byte and nothing else.
The faults are the spec's own (R190; log entry 15). -/
def Obligations.ProtCopiesTheOverrideLiteral : Prop :=
  ∀ (s : State) (qual : Byte) (dest param : Word) (lit : List Byte), s.fault = none →
    ¬(dest.toNat % 2 = 1 ∧ s.cfg.oddDest = .fault) →
    overrideFor s.cfg.profile (param.extractLsb' 0 8) = some lit →
    (lit = [] → exec (.prot qual dest param) s = .next s) ∧
    (lit ≠ [] → s.cfg.shmBytes < byteDest dest + lit.length →
      exec (.prot qual dest param) s =
        .next { s with fault := some (.shmRange (max (byteDest dest) s.cfg.shmBytes)) }) ∧
    (lit ≠ [] → byteDest dest + lit.length ≤ s.cfg.shmBytes →
      ∃ t, exec (.prot qual dest param) s = .next t ∧ t = { s with shm := t.shm } ∧
        (∀ x < lit.length, Memory.read t.shm (byteDest dest + x) = lit[x]?) ∧
        ∀ a, a < byteDest dest ∨ byteDest dest + lit.length ≤ a → Memory.read t.shm a = Memory.read s.shm a)

/-- PROT without an override (spec/43_protection.md R163, R166; R167 follows): ROM_RANGE of the 8-byte descriptor; then a
zero-length descriptor does nothing; else ROM_RANGE of the payload, SHM_RANGE of the destination, in that order, or exactly
the `len` payload bytes from D on, and no other byte and nothing else. The table has its ROM_SIZE bytes (R28).
The faults are the spec's own (R190; log entry 15). -/
def Obligations.ProtStreamsTheDescriptorsPayload : Prop :=
  ∀ (s : State) (qual : Byte) (dest param : Word) (b src len : Nat), s.fault = none → s.dec.length = s.cfg.romSize →
    ¬(dest.toNat % 2 = 1 ∧ s.cfg.oddDest = .fault) →
    overrideFor s.cfg.profile (param.extractLsb' 0 8) = none →
    b = s.cfg.descBase + (param.toNat % 64) * 8 →
    src = s.cfg.payloadBase + ((s.dec.getD (b + 2) 0x00#8).toNat + 256 * (s.dec.getD (b + 3) 0x00#8).toNat) →
    len = (s.dec.getD (b + 4) 0x00#8).toNat + 256 * (s.dec.getD (b + 5) 0x00#8).toNat →
    (s.cfg.romSize < b + 8 →
      exec (.prot qual dest param) s = .next { s with fault := some (.romRange (max b s.cfg.romSize)) }) ∧
    (b + 8 ≤ s.cfg.romSize → len = 0 → exec (.prot qual dest param) s = .next s) ∧
    (b + 8 ≤ s.cfg.romSize → 0 < len → s.cfg.romSize < src + len →
      exec (.prot qual dest param) s = .next { s with fault := some (.romRange (max src s.cfg.romSize)) }) ∧
    (b + 8 ≤ s.cfg.romSize → 0 < len → src + len ≤ s.cfg.romSize → s.cfg.shmBytes < byteDest dest + len →
      exec (.prot qual dest param) s =
        .next { s with fault := some (.shmRange (max (byteDest dest) s.cfg.shmBytes)) }) ∧
    (b + 8 ≤ s.cfg.romSize → 0 < len → src + len ≤ s.cfg.romSize → byteDest dest + len ≤ s.cfg.shmBytes →
      ∃ t, exec (.prot qual dest param) s = .next t ∧ t = { s with shm := t.shm } ∧
        (∀ x < len, Memory.read t.shm (byteDest dest + x) = s.dec[src + x]?) ∧
        ∀ a, a < byteDest dest ∨ byteDest dest + len ≤ a → Memory.read t.shm a = Memory.read s.shm a)

/-- An overridden sub-command's result does not depend on the decrypted table (spec/43_protection.md R161, R168). -/
def Obligations.OverriddenResponseIgnoresTheDecryptedTable : Prop :=
  ∀ (s t : State) (qual : Byte) (dest param : Word) (lit dec' : List Byte),
    overrideFor s.cfg.profile (param.extractLsb' 0 8) = some lit → exec (.prot qual dest param) s = .next t →
    exec (.prot qual dest param) { s with dec := dec' } = .next { t with dec := dec' }

/-- Without overrides, sub-commands that agree in their low six bits read the same descriptor and give the same result; the
64 descriptors span 512 bytes (spec/43_protection.md R164). -/
def Obligations.DescriptorIndexIgnoresTheTopBits : Prop :=
  (∀ (s : State) (qual : Byte) (dest param param' : Word), param.toNat % 64 = param'.toNat % 64 →
    overrideFor s.cfg.profile (param.extractLsb' 0 8) = none →
    overrideFor s.cfg.profile (param'.extractLsb' 0 8) = none →
    exec (.prot qual dest param) s = exec (.prot qual dest param') s) ∧
  ∀ sub : Byte, descriptorOffset sub = 8 * (sub.toNat % 64) ∧ descriptorOffset sub + 8 ≤ 512

/-- An odd `dest_offset` (spec/30_encoding.md R84): under FAULT the four commands that use it raise ODD_DEST before any
other check; under SPLIT the word commands act as at `dest_offset - 1`; FACTDEF and UNRECOGNISED never raise it.
The faults are the spec's own (R190; log entry 15). -/
def Obligations.OddDestinationFollowsThePolicy : Prop :=
  ∀ (s : State) (qual : Byte) (dest param opcode : Word), s.fault = none → dest.toNat % 2 = 1 →
    (s.cfg.oddDest = .fault →
      ∀ i ∈ [Instr.loadset qual dest param, .saveset qual dest param, .rdsw qual dest param, .prot qual dest param],
        exec i s = .next { s with fault := some (.oddDest dest.toNat) }) ∧
    (s.cfg.oddDest = .split →
      exec (.loadset qual dest param) s = exec (.loadset qual (dest - 1) param) s ∧
      exec (.saveset qual dest param) s = exec (.saveset qual (dest - 1) param) s ∧
      exec (.rdsw qual dest param) s = exec (.rdsw qual (dest - 1) param) s) ∧
    ∃ t u, exec (.factdef qual dest param) s = .next t ∧ t.fault = none ∧
      exec (.unrecognised opcode dest param) s = .next u ∧ u.fault = none

/-- SAVESET then LOADSET with the same destination, the store untouched in between, gives back the 128 bytes; LOADSET then
SAVESET leaves the store (spec/42_dispatcher.md R136). -/
def Obligations.SettingsRoundTrip : Prop :=
  (∀ (s t s' : State) (q q' : Byte) (dest p p' : Word),
    exec (.saveset q dest p) s = .next t → t.fault = none → s'.cfg = t.cfg → s'.store = t.store → s'.fault = none →
    ∃ u, exec (.loadset q' dest p') s' = .next u ∧ u.fault = none ∧
      ∀ j < 128, Memory.read u.shm (2 * wordIndex dest + j) = Memory.read s.shm (2 * wordIndex dest + j)) ∧
  ∀ (s t : State) (q q' : Byte) (dest p p' : Word),
    exec (.loadset q dest p) s = .next t → t.fault = none →
    ∃ u, exec (.saveset q' dest p') t = .next u ∧ u.fault = none ∧ u.store = s.store

/-- What LOADSET, RDSW and PROT write, and the fault they raise, depend on the configuration, the table, the store and the
switch, never on what shared memory held: every byte ends up equal in both runs or unchanged in both
(spec/42_dispatcher.md R134, R147). -/
def Obligations.ResponsesDoNotDependOnPriorMemory : Prop :=
  ∀ (s s' t t' : State) (qual : Byte) (dest param : Word),
    s'.cfg = s.cfg → s'.dec = s.dec → s'.store = s.store → s'.sw = s.sw →
    ∀ i ∈ [Instr.loadset qual dest param, .rdsw qual dest param, .prot qual dest param],
      exec i s = .next t → exec i s' = .next t' → t'.fault = t.fault ∧ ∀ a,
        Memory.read t'.shm a = Memory.read t.shm a ∨
          (Memory.read t.shm a = Memory.read s.shm a ∧ Memory.read t'.shm a = Memory.read s'.shm a)

/-- `param[15:8]` reaches no command's result but the record of an unrecognised one, and the word commands and FACTDEF ignore
`param` altogether (spec/30_encoding.md R83). -/
def Obligations.ParameterHighByteIsIgnored : Prop :=
  ∀ (s : State) (qual high high' sub : Byte) (dest param param' : Word),
    exec (.prot qual dest (high ++ sub)) s = exec (.prot qual dest (high' ++ sub)) s ∧
    exec (.loadset qual dest param) s = exec (.loadset qual dest param') s ∧
    exec (.saveset qual dest param) s = exec (.saveset qual dest param') s ∧
    exec (.rdsw qual dest param) s = exec (.rdsw qual dest param') s ∧
    ∀ dest', exec (.factdef qual dest param) s = exec (.factdef qual dest' param') s

/-! ## Faults -/

/-- A step that raises a fault records it, leaves the cells at 0x0000 and everything else as before the event; in a state
that holds a fault no event and no instruction has a step, so the fault is never cleared and the first is kept
(spec/60_exceptions.md R191, spec/20_memory.md R58).
The faults are the spec's own (R190; log entry 15). -/
def Obligations.FaultIsStickyAndChangesNothingElse : Prop :=
  (∀ (s t : State) (f : Fault), step s = .next t → t.fault = some f →
    s.fault = none ∧ t = { s with
      hs := Vector.replicate 4 0x0000#16
      fault := some f
      events := s.events.tail }) ∧
  ∀ (s : State) (f : Fault), s.fault = some f → step s = .fault f ∧ ∀ i, exec i s = .fault f

/-! ## Memories and collaborators -/

/-- The host's accesses (spec/20_memory.md R54, R51): a write stores its bytes, high byte first, and changes no other byte
and nothing else; a read gets the bytes, `none` where unwritten; at or above SHM_BYTES there is no step. A word access at an
odd address is refused too (log entry 9). -/
def Obligations.HostAccessesActOnSharedMemoryAlone : Prop :=
  ∀ (s : State) (es : List Event) (a : Nat) (v : Byte) (w : Word), s.fault = none →
    (s.events = .hostWrite8 a v :: es →
      (a < s.cfg.shmBytes → ∃ t, step s = .next t ∧ t = { s with shm := t.shm, events := es } ∧
        Memory.read t.shm a = some v ∧ ∀ x, x ≠ a → Memory.read t.shm x = Memory.read s.shm x) ∧
      (s.cfg.shmBytes ≤ a → step s = .refused (.hostOutOfRange a))) ∧
    (s.events = .hostWrite16 a w :: es →
      (a % 2 = 0 → a + 1 < s.cfg.shmBytes → ∃ t, step s = .next t ∧ t = { s with shm := t.shm, events := es } ∧
        Memory.read t.shm a = some (w.extractLsb' 8 8) ∧ Memory.read t.shm (a + 1) = some (w.extractLsb' 0 8) ∧
        ∀ x, x ≠ a → x ≠ a + 1 → Memory.read t.shm x = Memory.read s.shm x) ∧
      (a % 2 = 0 → s.cfg.shmBytes ≤ a + 1 → step s = .refused (.hostOutOfRange a)) ∧
      (a % 2 = 1 → step s = .refused (.hostUnaligned a))) ∧
    (s.events = .hostRead8 a :: es →
      (a < s.cfg.shmBytes →
        step s = .next { s with replies := s.replies ++ [.bytes [Memory.read s.shm a]], events := es }) ∧
      (s.cfg.shmBytes ≤ a → step s = .refused (.hostOutOfRange a))) ∧
    (s.events = .hostRead16 a :: es →
      (a % 2 = 0 → a + 1 < s.cfg.shmBytes → step s = .next { s with
        replies := s.replies ++ [.bytes [Memory.read s.shm a, Memory.read s.shm (a + 1)]]
        events := es }) ∧
      (a % 2 = 0 → s.cfg.shmBytes ≤ a + 1 → step s = .refused (.hostOutOfRange a)) ∧
      (a % 2 = 1 → step s = .refused (.hostUnaligned a)))

/-- MemRead (spec/20_memory.md R52): the range first, then the lowest unwritten byte, else the bytes big-endian.
The faults are the spec's own (R190; log entry 15). -/
def Obligations.MemReadChecksThenReadsBigEndian : Prop :=
  ∀ (s : State) (a : Nat),
    (s.cfg.shmBytes ≤ a → memRead8 s a = .error (.shmRange a)) ∧
    (a < s.cfg.shmBytes → memRead8 s a = match Memory.read s.shm a with
      | none => .error (.uninitRead a)
      | some b => .ok b) ∧
    (s.cfg.shmBytes ≤ a → memRead16 s a = .error (.shmRange a)) ∧
    (s.cfg.shmBytes = a + 1 → memRead16 s a = .error (.shmRange (a + 1))) ∧
    (a + 1 < s.cfg.shmBytes → Memory.read s.shm a = none → memRead16 s a = .error (.uninitRead a)) ∧
    (a + 1 < s.cfg.shmBytes → (Memory.read s.shm a).isSome = true → Memory.read s.shm (a + 1) = none →
      memRead16 s a = .error (.uninitRead (a + 1))) ∧
    ∀ h l : Byte, a + 1 < s.cfg.shmBytes → Memory.read s.shm a = some h → Memory.read s.shm (a + 1) = some l →
      memRead16 s a = .ok (h ++ l)

/-- WordBase and RangeCheck (spec/42_dispatcher.md R133): the byte address of the destination's word, ODD_DEST under FAULT;
SHM_RANGE with the first byte at or above SHM_BYTES in the range.
The faults are the spec's own (R190; log entry 15). -/
def Obligations.WordBaseAndRangeCheckAreAsStated : Prop :=
  ∀ (c : Config) (dest : Word) (a n : Nat),
    (dest.toNat % 2 = 1 → c.oddDest = .fault → wordBase c dest = .error (.oddDest dest.toNat)) ∧
    (dest.toNat % 2 = 1 → c.oddDest = .split → wordBase c dest = .ok (dest.toNat - 1)) ∧
    (dest.toNat % 2 = 0 → wordBase c dest = .ok dest.toNat) ∧
    (a + n ≤ c.shmBytes → rangeCheck c a n = .ok ()) ∧
    (c.shmBytes < a + n → rangeCheck c a n = .error (.shmRange (max a c.shmBytes))) ∧
    (c.shmBytes < a + n → 0 < n → a ≤ max a c.shmBytes ∧ max a c.shmBytes < a + n ∧
      ∀ x, a ≤ x → c.shmBytes ≤ x → max a c.shmBytes ≤ x)

/-- DecRead (spec/20_memory.md R55): byte i of the table, plain index, and ROM_RANGE at or above ROM_SIZE. The table has its
ROM_SIZE bytes (spec/10_state.md R28).
The faults are the spec's own (R190; log entry 15). -/
def Obligations.DecReadReturnsTheByteOrRomRange : Prop :=
  ∀ (s : State) (i : Nat), s.dec.length = s.cfg.romSize →
    (∀ b, s.dec[i]? = some b → decRead s i = .ok b) ∧ (s.cfg.romSize ≤ i → decRead s i = .error (.romRange i))

/-- Each piece of state has only the writers the spec gives it: the store by SAVESET and FACTDEF, shared memory by the host
and LOADSET, RDSW, PROT, the diagnostic log by an unrecognised opcode, the switch by the environment, the replies by status
and host reads (spec/20_memory.md R50, spec/10_state.md R29, R30, spec/60_exceptions.md R197). -/
def Obligations.EachStateHasOnlyItsWriters : Prop :=
  ∀ s t : State, step s = .next t →
    (t.store ≠ s.store →
      (∃ n < 4, ∃ v m, s.events.head? = some (.busWrite n v m)) ∧
        (Memory.read s.shm 0x10 = some 0x42#8 ∨ Memory.read s.shm 0x10 = some 0x43#8)) ∧
    (t.shm ≠ s.shm →
      (∃ a v, s.events.head? = some (.hostWrite8 a v)) ∨ (∃ a v, s.events.head? = some (.hostWrite16 a v)) ∨
        ((∃ n < 4, ∃ v m, s.events.head? = some (.busWrite n v m)) ∧
          (Memory.read s.shm 0x10 = some 0x02#8 ∨ Memory.read s.shm 0x10 = some 0x03#8 ∨
            Memory.read s.shm 0x10 = some 0x04#8))) ∧
    (t.diag ≠ s.diag →
      (∃ n < 4, ∃ v m, s.events.head? = some (.busWrite n v m)) ∧
        ∃ op d, Memory.read s.shm 0x10 = some op ∧ op ∉ ([0x02#8, 0x03#8, 0x04#8, 0x42#8, 0x43#8] : List Byte) ∧
          t.diag = s.diag ++ [d]) ∧
    (t.sw ≠ s.sw → s.events.head? = some (.setSwitch t.sw)) ∧
    (t.replies ≠ s.replies → s.events.head? = some (.busRead 4) ∨ (∃ a, s.events.head? = some (.hostRead8 a)) ∨
      ∃ a, s.events.head? = some (.hostRead16 a))

/-- No step changes the configuration, so the status value and the profile are constant, nor the decrypted table, which is
computed once (spec/10_state.md R20, R24, R28, spec/40_decryptor.md R102). -/
def Obligations.ConfigurationAndDecryptedTableNeverChange : Prop :=
  ∀ s t : State, step s = .next t → t.cfg = s.cfg ∧ t.dec = s.dec

/-- The environment's change of the switch sets the switch alone (spec/10_state.md R29). -/
def Obligations.SwitchChangeSetsTheSwitchAlone : Prop :=
  ∀ (s : State) (es : List Event) (v : Word), s.fault = none → s.events = .setSwitch v :: es →
    step s = .next { s with sw := v, events := es }

/-! ## Decryption, initialisation, reset -/

/-- Decrypt (spec/40_decryptor.md R100): as many bytes as the image, byte i being the raw byte plus `T[(i ^ 1) & 0xFF]`
modulo 256; an even position takes the key of the next index, an odd one that of the previous. -/
def Obligations.DecryptAddsTheLaneSwappedKey : Prop :=
  ∀ (t : Vector Byte 256) (raw : List Byte), (decrypt t raw).length = raw.length ∧
    ∀ (i : Nat) (b : Byte), raw[i]? = some b →
      (decrypt t raw)[i]? = some (b + t.toList.getD ((i ^^^ 1) % 256) 0x00#8) ∧
      (i % 2 = 0 → (decrypt t raw)[i]? = some (b + t.toList.getD (i % 256 + 1) 0x00#8)) ∧
      (i % 2 = 1 → (decrypt t raw)[i]? = some (b + t.toList.getD (i % 256 - 1) 0x00#8))

/-- Two tables give different bytes at a position exactly when their key bytes there differ (spec/40_decryptor.md R103). -/
def Obligations.DecryptionDiffersExactlyWhereTheKeysDiffer : Prop :=
  ∀ (t t' : Vector Byte 256) (raw : List Byte) (i : Nat), i < raw.length →
    ((decrypt t raw)[i]? ≠ (decrypt t' raw)[i]? ↔
      t.toList.getD ((i ^^^ 1) % 256) 0x00#8 ≠ t'.toList.getD ((i ^^^ 1) % 256) 0x00#8)

/-- Initialisation (spec/70_reset_and_hazards.md R220, spec/40_decryptor.md R101): the cells 0x0000, every shared-memory byte
unwritten, the store STORE_INIT, no fault, no diagnostic, the table decrypted with the selected key table. -/
def Obligations.InitialisationLeavesTheStatedValues : Prop :=
  ∀ (c : Config) (raw : List Byte) (st : Vector Word 64) (sw : Word),
    (∀ k : Fin 4, (State.init c raw st sw).hs[k] = 0x0000#16) ∧
    (∀ a, Memory.read (State.init c raw st sw).shm a = none) ∧
    (c.profile.tableSel = .normal → (State.init c raw st sw).dec = decrypt c.tNormal raw) ∧
    (c.profile.tableSel = .alt → (State.init c raw st sw).dec = decrypt c.tAlt raw) ∧
    (State.init c raw st sw).store = st ∧ (State.init c raw st sw).fault = none ∧
    (State.init c raw st sw).diag = [] ∧ (State.init c raw st sw).cfg = c

/-- The RESET event clears the cells and has no other effect; in a faulted state it has no step
(spec/70_reset_and_hazards.md R221). -/
def Obligations.DeviceResetClearsTheCellsAlone : Prop :=
  ∀ (s : State) (es : List Event), s.events = .deviceReset :: es →
    (s.fault = none → step s = .next { s with hs := Vector.replicate 4 0x0000#16, events := es }) ∧
    ∀ f, s.fault = some f → step s = .fault f

/-- Initialisation from a legal configuration and an image of ROM_SIZE bytes meets the invariant, and so does the model's
reset state (its launch values are the model's choice, log entry 2). -/
def Obligations.InitialStatesMeetTheInvariant : Prop :=
  (∀ (c : Config) (raw : List Byte) (st : Vector Word 64) (sw : Word), c.wf = true → raw.length = c.romSize →
    (State.init c raw st sw).Inv) ∧ State.reset.Inv

/-- Every step keeps the invariant: legal configuration, canonical shared memory below SHM_BYTES, a table of ROM_SIZE bytes,
not all cells the sentinel (spec/10_state.md R23, R28, R31). -/
def Obligations.EveryStepKeepsTheInvariant : Prop :=
  ∀ s t : State, s.Inv → step s = .next t → t.Inv
end

