-- ==== Sys2Proof/Laws/State.lean ====
section
/-! SUPPORT. One lemma per field per update of the state. -/

namespace Sys2Proof.Machine

variable (s : State)

@[simp] theorem memWrite8_cfg (a : Nat) (v : Byte) : (memWrite8 s a v).cfg = s.cfg := rfl
@[simp] theorem memWrite8_hs (a : Nat) (v : Byte) : (memWrite8 s a v).hs = s.hs := rfl
@[simp] theorem memWrite8_dec (a : Nat) (v : Byte) : (memWrite8 s a v).dec = s.dec := rfl
@[simp] theorem memWrite8_shm (a : Nat) (v : Byte) : (memWrite8 s a v).shm = Memory.write s.shm a v := rfl
@[simp] theorem memWrite8_store (a : Nat) (v : Byte) : (memWrite8 s a v).store = s.store := rfl
@[simp] theorem memWrite8_sw (a : Nat) (v : Byte) : (memWrite8 s a v).sw = s.sw := rfl
@[simp] theorem memWrite8_fault (a : Nat) (v : Byte) : (memWrite8 s a v).fault = s.fault := rfl
@[simp] theorem memWrite8_diag (a : Nat) (v : Byte) : (memWrite8 s a v).diag = s.diag := rfl
@[simp] theorem memWrite8_events (a : Nat) (v : Byte) : (memWrite8 s a v).events = s.events := rfl
@[simp] theorem memWrite8_replies (a : Nat) (v : Byte) : (memWrite8 s a v).replies = s.replies := rfl

@[simp] theorem memWrite16_cfg (a : Nat) (v : Word) : (memWrite16 s a v).cfg = s.cfg := rfl
@[simp] theorem memWrite16_hs (a : Nat) (v : Word) : (memWrite16 s a v).hs = s.hs := rfl
@[simp] theorem memWrite16_dec (a : Nat) (v : Word) : (memWrite16 s a v).dec = s.dec := rfl
@[simp] theorem memWrite16_shm (a : Nat) (v : Word) : (memWrite16 s a v).shm = Memory.writeBytes s.shm a [hiByte v, loByte v] := rfl
@[simp] theorem memWrite16_store (a : Nat) (v : Word) : (memWrite16 s a v).store = s.store := rfl
@[simp] theorem memWrite16_sw (a : Nat) (v : Word) : (memWrite16 s a v).sw = s.sw := rfl
@[simp] theorem memWrite16_fault (a : Nat) (v : Word) : (memWrite16 s a v).fault = s.fault := rfl
@[simp] theorem memWrite16_diag (a : Nat) (v : Word) : (memWrite16 s a v).diag = s.diag := rfl
@[simp] theorem memWrite16_events (a : Nat) (v : Word) : (memWrite16 s a v).events = s.events := rfl
@[simp] theorem memWrite16_replies (a : Nat) (v : Word) : (memWrite16 s a v).replies = s.replies := rfl

@[simp] theorem memWriteBytes_cfg (a : Nat) (bs : List Byte) : (memWriteBytes s a bs).cfg = s.cfg := rfl
@[simp] theorem memWriteBytes_hs (a : Nat) (bs : List Byte) : (memWriteBytes s a bs).hs = s.hs := rfl
@[simp] theorem memWriteBytes_dec (a : Nat) (bs : List Byte) : (memWriteBytes s a bs).dec = s.dec := rfl
@[simp] theorem memWriteBytes_shm (a : Nat) (bs : List Byte) : (memWriteBytes s a bs).shm = Memory.writeBytes s.shm a bs := rfl
@[simp] theorem memWriteBytes_store (a : Nat) (bs : List Byte) : (memWriteBytes s a bs).store = s.store := rfl
@[simp] theorem memWriteBytes_sw (a : Nat) (bs : List Byte) : (memWriteBytes s a bs).sw = s.sw := rfl
@[simp] theorem memWriteBytes_fault (a : Nat) (bs : List Byte) : (memWriteBytes s a bs).fault = s.fault := rfl
@[simp] theorem memWriteBytes_diag (a : Nat) (bs : List Byte) : (memWriteBytes s a bs).diag = s.diag := rfl
@[simp] theorem memWriteBytes_events (a : Nat) (bs : List Byte) : (memWriteBytes s a bs).events = s.events := rfl
@[simp] theorem memWriteBytes_replies (a : Nat) (bs : List Byte) : (memWriteBytes s a bs).replies = s.replies := rfl

@[simp] theorem storeWriteAll_cfg (v : Vector Word 64) : (storeWriteAll s v).cfg = s.cfg := rfl
@[simp] theorem storeWriteAll_hs (v : Vector Word 64) : (storeWriteAll s v).hs = s.hs := rfl
@[simp] theorem storeWriteAll_dec (v : Vector Word 64) : (storeWriteAll s v).dec = s.dec := rfl
@[simp] theorem storeWriteAll_shm (v : Vector Word 64) : (storeWriteAll s v).shm = s.shm := rfl
@[simp] theorem storeWriteAll_store (v : Vector Word 64) : (storeWriteAll s v).store = v := rfl
@[simp] theorem storeWriteAll_sw (v : Vector Word 64) : (storeWriteAll s v).sw = s.sw := rfl
@[simp] theorem storeWriteAll_fault (v : Vector Word 64) : (storeWriteAll s v).fault = s.fault := rfl
@[simp] theorem storeWriteAll_diag (v : Vector Word 64) : (storeWriteAll s v).diag = s.diag := rfl
@[simp] theorem storeWriteAll_events (v : Vector Word 64) : (storeWriteAll s v).events = s.events := rfl
@[simp] theorem storeWriteAll_replies (v : Vector Word 64) : (storeWriteAll s v).replies = s.replies := rfl

@[simp] theorem writeCell_cfg (n : Fin 4) (v m : Word) : (writeCell s n v m).cfg = s.cfg := rfl
@[simp] theorem writeCell_hs (n : Fin 4) (v m : Word) : (writeCell s n v m).hs = s.hs.set n (merge s.hs[n] v m) := rfl
@[simp] theorem writeCell_dec (n : Fin 4) (v m : Word) : (writeCell s n v m).dec = s.dec := rfl
@[simp] theorem writeCell_shm (n : Fin 4) (v m : Word) : (writeCell s n v m).shm = s.shm := rfl
@[simp] theorem writeCell_store (n : Fin 4) (v m : Word) : (writeCell s n v m).store = s.store := rfl
@[simp] theorem writeCell_sw (n : Fin 4) (v m : Word) : (writeCell s n v m).sw = s.sw := rfl
@[simp] theorem writeCell_fault (n : Fin 4) (v m : Word) : (writeCell s n v m).fault = s.fault := rfl
@[simp] theorem writeCell_diag (n : Fin 4) (v m : Word) : (writeCell s n v m).diag = s.diag := rfl
@[simp] theorem writeCell_events (n : Fin 4) (v m : Word) : (writeCell s n v m).events = s.events := rfl
@[simp] theorem writeCell_replies (n : Fin 4) (v m : Word) : (writeCell s n v m).replies = s.replies := rfl

@[simp] theorem clearCells_cfg : (clearCells s).cfg = s.cfg := rfl
@[simp] theorem clearCells_hs : (clearCells s).hs = Vector.replicate 4 0x0000#16 := rfl
@[simp] theorem clearCells_dec : (clearCells s).dec = s.dec := rfl
@[simp] theorem clearCells_shm : (clearCells s).shm = s.shm := rfl
@[simp] theorem clearCells_store : (clearCells s).store = s.store := rfl
@[simp] theorem clearCells_sw : (clearCells s).sw = s.sw := rfl
@[simp] theorem clearCells_fault : (clearCells s).fault = s.fault := rfl
@[simp] theorem clearCells_diag : (clearCells s).diag = s.diag := rfl
@[simp] theorem clearCells_events : (clearCells s).events = s.events := rfl
@[simp] theorem clearCells_replies : (clearCells s).replies = s.replies := rfl

@[simp] theorem emitDiag_cfg (d : DiagRecord) : (emitDiag s d).cfg = s.cfg := rfl
@[simp] theorem emitDiag_hs (d : DiagRecord) : (emitDiag s d).hs = s.hs := rfl
@[simp] theorem emitDiag_dec (d : DiagRecord) : (emitDiag s d).dec = s.dec := rfl
@[simp] theorem emitDiag_shm (d : DiagRecord) : (emitDiag s d).shm = s.shm := rfl
@[simp] theorem emitDiag_store (d : DiagRecord) : (emitDiag s d).store = s.store := rfl
@[simp] theorem emitDiag_sw (d : DiagRecord) : (emitDiag s d).sw = s.sw := rfl
@[simp] theorem emitDiag_fault (d : DiagRecord) : (emitDiag s d).fault = s.fault := rfl
@[simp] theorem emitDiag_diag (d : DiagRecord) : (emitDiag s d).diag = s.diag ++ [d] := rfl
@[simp] theorem emitDiag_events (d : DiagRecord) : (emitDiag s d).events = s.events := rfl
@[simp] theorem emitDiag_replies (d : DiagRecord) : (emitDiag s d).replies = s.replies := rfl

@[simp] theorem reply_cfg (r : Reply) : (reply s r).cfg = s.cfg := rfl
@[simp] theorem reply_hs (r : Reply) : (reply s r).hs = s.hs := rfl
@[simp] theorem reply_dec (r : Reply) : (reply s r).dec = s.dec := rfl
@[simp] theorem reply_shm (r : Reply) : (reply s r).shm = s.shm := rfl
@[simp] theorem reply_store (r : Reply) : (reply s r).store = s.store := rfl
@[simp] theorem reply_sw (r : Reply) : (reply s r).sw = s.sw := rfl
@[simp] theorem reply_fault (r : Reply) : (reply s r).fault = s.fault := rfl
@[simp] theorem reply_diag (r : Reply) : (reply s r).diag = s.diag := rfl
@[simp] theorem reply_events (r : Reply) : (reply s r).events = s.events := rfl
@[simp] theorem reply_replies (r : Reply) : (reply s r).replies = s.replies ++ [r] := rfl

/-! Each update as a record update of its one field. -/

theorem memWrite16_frame (a : Nat) (v : Word) : memWrite16 s a v = { s with shm := (memWrite16 s a v).shm } := rfl
theorem memWriteBytes_frame (a : Nat) (bs : List Byte) :
    memWriteBytes s a bs = { s with shm := (memWriteBytes s a bs).shm } := rfl
theorem storeWriteAll_frame (v : Vector Word 64) :
    storeWriteAll s v = { s with store := (storeWriteAll s v).store } := rfl
theorem writeCell_frame (n : Fin 4) (v m : Word) : writeCell s n v m = { s with hs := (writeCell s n v m).hs } := rfl

@[simp] theorem init_cfg (c : Config) (raw : List Byte) (st : Vector Word 64) (w : Word) :
    (State.init c raw st w).cfg = c := rfl
@[simp] theorem init_hs (c : Config) (raw : List Byte) (st : Vector Word 64) (w : Word) :
    (State.init c raw st w).hs = Vector.replicate 4 0x0000#16 := rfl
@[simp] theorem init_dec (c : Config) (raw : List Byte) (st : Vector Word 64) (w : Word) :
    (State.init c raw st w).dec = decrypt (selectTable c) raw := rfl
@[simp] theorem init_shm (c : Config) (raw : List Byte) (st : Vector Word 64) (w : Word) :
    (State.init c raw st w).shm = [] := rfl
@[simp] theorem init_fault (c : Config) (raw : List Byte) (st : Vector Word 64) (w : Word) :
    (State.init c raw st w).fault = none := rfl

end Sys2Proof.Machine
end

