-- ==== Sys2Proof/Laws/Cells.lean ====
section
/-! SUPPORT. The handshake cells. -/

namespace Sys2Proof.Machine

theorem allSentinel_iff (hs : Vector Word 4) : allSentinel hs = true ↔ ∀ k : Fin 4, hs[k] = sentinel := by
  simp [allSentinel, Fin.forall_fin_succ, and_assoc]

theorem allSentinel_eq_false_iff (hs : Vector Word 4) : allSentinel hs = false ↔ ∃ k : Fin 4, hs[k] ≠ sentinel := by
  rw [← Bool.not_eq_true, allSentinel_iff]; simp

@[simp] theorem allSentinel_clear : allSentinel (Vector.replicate 4 0x0000#16) = false := by decide

/-- The merge bit by bit (spec/41_handshake.md R112). -/
theorem merge_bit (old value mask : Word) (i : Nat) :
    (merge old value mask).getLsbD i = if mask.getLsbD i then value.getLsbD i else old.getLsbD i := by
  by_cases hi : i < 16
  · simp only [merge, BitVec.getLsbD_or, BitVec.getLsbD_and, BitVec.getLsbD_not, hi, decide_true, Bool.true_and]
    cases mask.getLsbD i <;> simp
  · have h : ∀ w : Word, w.getLsbD i = false := fun w => BitVec.getLsbD_of_ge w i (by omega)
    simp only [h, ite_self]

@[simp] theorem merge_full (old value : Word) : merge old value sentinel = value := by
  apply BitVec.eq_of_getLsbD_eq
  intro i hi
  have hs : sentinel.getLsbD i = true := by
    have : ∀ i : Fin 16, sentinel.getLsbD i = true := by decide
    exact this ⟨i, hi⟩
  simp [merge_bit, hs]

@[simp] theorem merge_zero (old value : Word) : merge old value 0 = old := by
  apply BitVec.eq_of_getLsbD_eq
  intro i hi
  simp [merge_bit]

theorem writeCell_self (s : State) (n : Fin 4) (v m : Word) : (writeCell s n v m).hs[n] = merge s.hs[n] v m := by
  simp [writeCell]

theorem writeCell_other (s : State) {n k : Fin 4} (v m : Word) (h : k ≠ n) : (writeCell s n v m).hs[k] = s.hs[k] := by
  have : n.val ≠ k.val := fun e => h (Fin.ext e.symm)
  simp [writeCell, this]

end Sys2Proof.Machine
end

