-- ==== Sys2Proof/Laws/Memory.lean ====
section
/-! SUPPORT. The laws of shared memory: a read after a write, and the canonical form, which every memory operation keeps. -/

namespace Sys2Proof.Machine

@[simp] theorem Memory.read_nil (a : Nat) : Memory.read [] a = none := rfl

theorem Memory.read_cons (c : Host.Cell) (m : Memory) (a : Nat) :
    Memory.read (c :: m) a = if c.1 = a then some c.2 else Memory.read m a := rfl

@[simp] theorem Memory.read_write_same (m : Memory) (a : Nat) (b : Byte) :
    Memory.read (Memory.write m a b) a = some b := by
  induction m with
  | nil => simp [Memory.write, Memory.read]
  | cons c m ih =>
    by_cases h1 : a < c.1
    · simp [Memory.write, h1, Memory.read]
    · by_cases h2 : a = c.1
      · simp [Memory.write, h2, Memory.read]
      · simp [Memory.write, h1, h2, Memory.read, ih, Ne.symm h2]

theorem Memory.read_write_other (m : Memory) {a a' : Nat} (b : Byte) (h : a' ≠ a) :
    Memory.read (Memory.write m a b) a' = Memory.read m a' := by
  induction m with
  | nil => simp [Memory.write, Memory.read, Ne.symm h]
  | cons c m ih =>
    by_cases h1 : a < c.1
    · simp [Memory.write, h1, Memory.read, Ne.symm h]
    · by_cases h2 : a = c.1
      · simp [Memory.write, h2, Memory.read, h2 ▸ Ne.symm h]
      · simp [Memory.write, h1, h2, Memory.read, ih]

theorem Memory.read_write (m : Memory) (a a' : Nat) (b : Byte) :
    Memory.read (Memory.write m a b) a' = if a' = a then some b else Memory.read m a' := by
  by_cases h : a' = a
  · simp [h]
  · simp [h, Memory.read_write_other]

@[simp] theorem Memory.writeBytes_nil (m : Memory) (a : Nat) : Memory.writeBytes m a [] = m := by
  cases m <;> rfl

@[simp] theorem Memory.writeBytes_cons (m : Memory) (a : Nat) (b : Byte) (bs : List Byte) :
    Memory.writeBytes m a (b :: bs) = Memory.writeBytes (Memory.write m a b) (a + 1) bs := by
  cases m <;> rfl

theorem Memory.writeBytes_append (m : Memory) (a : Nat) (bs cs : List Byte) :
    Memory.writeBytes m a (bs ++ cs) = Memory.writeBytes (Memory.writeBytes m a bs) (a + bs.length) cs := by
  induction bs generalizing m a with
  | nil => simp
  | cons b bs ih => simp [ih, Nat.add_assoc, Nat.add_comm 1]

/-- Everything a copy of bytes does: inside its range the bytes copied, outside it nothing. -/
theorem Memory.read_writeBytes (m : Memory) (a : Nat) (bs : List Byte) (x : Nat) :
    Memory.read (Memory.writeBytes m a bs) x = if a ≤ x ∧ x < a + bs.length then bs[x - a]? else Memory.read m x := by
  induction bs generalizing m a with
  | nil => simp
  | cons b bs ih =>
    rw [Memory.writeBytes_cons, ih, Memory.read_write]
    by_cases hx : x = a
    · subst hx; simp
    · by_cases h : a + 1 ≤ x ∧ x < a + 1 + bs.length
      · have h' : a ≤ x ∧ x < a + (b :: bs).length := by simp; omega
        obtain ⟨k, hk⟩ : ∃ k, x - a = k + 1 := ⟨x - a - 1, by omega⟩
        simp only [h, h', and_self, if_true, hk, List.getElem?_cons_succ]
        congr 1; omega
      · have h' : ¬(a ≤ x ∧ x < a + (b :: bs).length) := by simp; omega
        simp only [h, h', if_false, hx]

/-! ## The canonical form -/

theorem Memory.wf_iff (m : Memory) : Memory.wf m = true ↔ m.Pairwise fun c d => c.1 < d.1 := by
  simp [Memory.wf]

@[simp] theorem Memory.wf_nil : Memory.wf [] = true := rfl

theorem Memory.mem_write {m : Memory} {a : Nat} {b : Byte} {c : Host.Cell} (h : c ∈ Memory.write m a b) :
    c = (a, b) ∨ c ∈ m := by
  induction m with
  | nil => simpa [Memory.write] using h
  | cons d m ih =>
    simp only [Memory.write] at h
    split at h
    · simpa using h
    · split at h
      · rcases List.mem_cons.1 h with h | h
        · exact .inl h
        · exact .inr (List.mem_cons_of_mem _ h)
      · rcases List.mem_cons.1 h with h | h
        · exact .inr (h ▸ List.mem_cons_self)
        · exact (ih h).imp id (List.mem_cons_of_mem _)

theorem Memory.wf_write {m : Memory} (a : Nat) (b : Byte) (h : Memory.wf m = true) :
    Memory.wf (Memory.write m a b) = true := by
  rw [Memory.wf_iff] at *
  induction m with
  | nil => simp [Memory.write]
  | cons c m ih =>
    obtain ⟨hc, hm⟩ := List.pairwise_cons.1 h
    simp only [Memory.write]
    split
    · next ha =>
      refine List.pairwise_cons.2 ⟨fun d hd => ?_, h⟩
      rcases List.mem_cons.1 hd with rfl | hd
      · exact ha
      · exact Nat.lt_trans ha (hc d hd)
    · next ha =>
      split
      · next he => exact List.pairwise_cons.2 ⟨fun d hd => he ▸ hc d hd, hm⟩
      · next he =>
        refine List.pairwise_cons.2 ⟨fun d hd => ?_, ih hm⟩
        rcases Memory.mem_write hd with rfl | hd
        · show c.1 < a
          omega
        · exact hc d hd

theorem Memory.wf_writeBytes {m : Memory} (a : Nat) (bs : List Byte) (h : Memory.wf m = true) :
    Memory.wf (Memory.writeBytes m a bs) = true := by
  induction bs generalizing m a with
  | nil => simpa using h
  | cons b bs ih => simpa using ih _ (Memory.wf_write a b h)

theorem Memory.mem_writeBytes {m : Memory} {a : Nat} {bs : List Byte} {c : Host.Cell}
    (h : c ∈ Memory.writeBytes m a bs) : c ∈ m ∨ c.1 < a + bs.length := by
  induction bs generalizing m a with
  | nil => exact .inl (by simpa using h)
  | cons b bs ih =>
    rw [Memory.writeBytes_cons] at h
    rcases ih h with h | h
    · rcases Memory.mem_write h with rfl | h
      · exact .inr (by simp)
      · exact .inl h
    · exact .inr (by simp; omega)

/-- Two canonical memories that read alike everywhere are equal: the list is the memory. -/
theorem Memory.ext_of_wf {m m' : Memory} (h : Memory.wf m = true) (h' : Memory.wf m' = true)
    (hr : ∀ a, Memory.read m a = Memory.read m' a) : m = m' := by
  rw [Memory.wf_iff] at h h'
  have low : ∀ {m : Memory} {a : Nat}, (∀ d ∈ m, a < d.1) → Memory.read m a = none := by
    intro m a hm
    induction m with
    | nil => rfl
    | cons d m ih =>
      have hd := hm d List.mem_cons_self
      rw [Memory.read_cons, if_neg (by omega)]
      exact ih fun e he => hm e (List.mem_cons_of_mem _ he)
  induction m generalizing m' with
  | nil =>
    cases m' with
    | nil => rfl
    | cons d m' => simpa [Memory.read_cons] using hr d.1
  | cons c m ih =>
    obtain ⟨hc, hm⟩ := List.pairwise_cons.1 h
    cases m' with
    | nil => simpa [Memory.read_cons] using hr c.1
    | cons d m' =>
      obtain ⟨hd, hm'⟩ := List.pairwise_cons.1 h'
      have key : c.1 = d.1 := by
        rcases Nat.lt_trichotomy c.1 d.1 with hlt | he | hlt
        · have := hr c.1
          rw [low (m := d :: m') (a := c.1)] at this
          · simp [Memory.read_cons] at this
          · intro e he
            rcases List.mem_cons.1 he with rfl | he
            · exact hlt
            · exact Nat.lt_trans hlt (hd e he)
        · exact he
        · have := hr d.1
          rw [low (m := c :: m) (a := d.1)] at this
          · simp [Memory.read_cons] at this
          · intro e he
            rcases List.mem_cons.1 he with rfl | he
            · exact hlt
            · exact Nat.lt_trans hlt (hc e he)
      have hval : c.2 = d.2 := by simpa [Memory.read_cons, key] using hr d.1
      have htail : m = m' := by
        refine ih hm hm' fun a => ?_
        by_cases ha : c.1 = a
        · subst ha
          rw [low hc, low (fun e he => key ▸ hd e he)]
        · simpa [Memory.read_cons, ha, key ▸ ha] using hr a
      rw [htail, Prod.ext key hval]

/-! ## Reading a range -/

theorem Memory.readBytes_ok {m : Memory} {a n : Nat} {bs : List Byte} (h : Memory.readBytes m a n = .ok bs) :
    bs.length = n ∧ ∀ j < n, Memory.read m (a + j) = bs[j]? := by
  induction n generalizing a bs with
  | zero => simp [Memory.readBytes] at h; simp [← h]
  | succ n ih =>
    simp only [Memory.readBytes] at h
    split at h
    · cases h
    · next b hb =>
      split at h
      · cases h
      · next cs hcs =>
        cases h
        obtain ⟨hl, hr⟩ := ih hcs
        refine ⟨by simp [hl], fun j hj => ?_⟩
        cases j with
        | zero => simpa using hb
        | succ j => simpa [Nat.add_assoc, Nat.add_comm 1] using hr j (by omega)

theorem Memory.readBytes_error {m : Memory} {a n x : Nat} (h : Memory.readBytes m a n = .error x) :
    ∃ j < n, x = a + j ∧ Memory.read m (a + j) = none ∧ ∀ i < j, (Memory.read m (a + i)).isSome = true := by
  induction n generalizing a x with
  | zero => simp [Memory.readBytes] at h
  | succ n ih =>
    simp only [Memory.readBytes] at h
    split at h
    · next hb => cases h; exact ⟨0, by omega, rfl, hb, by simp⟩
    · next b hb =>
      split at h
      · next y hy =>
        cases h
        obtain ⟨j, hj, rfl, hn, hs⟩ := ih hy
        refine ⟨j + 1, by omega, by omega, by rw [← hn]; congr 1; omega, fun i hi => ?_⟩
        cases i with
        | zero => simp [hb]
        | succ i => have := hs i (by omega); rw [show a + (i + 1) = a + 1 + i by omega]; exact this
      · cases h

/-- A range whose every byte is written reads as those bytes. -/
theorem Memory.readBytes_of_written {m : Memory} {a n : Nat} (h : ∀ j < n, (Memory.read m (a + j)).isSome = true) :
    ∃ bs, Memory.readBytes m a n = .ok bs := by
  cases hr : Memory.readBytes m a n with
  | ok bs => exact ⟨bs, rfl⟩
  | error x =>
    obtain ⟨j, hj, -, hn, -⟩ := Memory.readBytes_error hr
    simpa [hn] using h j hj

/-- The lowest unwritten byte of a range is the one reported. -/
theorem Memory.readBytes_of_unwritten {m : Memory} {a n j : Nat} (hj : j < n) (hn : Memory.read m (a + j) = none)
    (hs : ∀ i < j, (Memory.read m (a + i)).isSome = true) : Memory.readBytes m a n = .error (a + j) := by
  cases hr : Memory.readBytes m a n with
  | ok bs =>
    obtain ⟨hl, hb⟩ := Memory.readBytes_ok hr
    have := hb j hj
    rw [hn, eq_comm, List.getElem?_eq_none_iff] at this
    omega
  | error x =>
    obtain ⟨i, hi, rfl, hin, his⟩ := Memory.readBytes_error hr
    rcases Nat.lt_trichotomy i j with h | h | h
    · have := hs i h; simp [hin] at this
    · rw [h]
    · have := his j h; simp [hn] at this

end Sys2Proof.Machine
end

