-- ==== Sys2Proof/Laws/Ops.lean ====
section
/-! SUPPORT. Once for each shared operation, everything it can do. -/

namespace Sys2Proof.Machine

/-! ## Sequencing of checks -/

@[simp] theorem except_ok_bind {ε α β : Type} (a : α) (f : α → Except ε β) : (Except.ok a >>= f) = f a := rfl
@[simp] theorem except_error_bind {ε α β : Type} (e : ε) (f : α → Except ε β) :
    ((Except.error e : Except ε α) >>= f) = .error e := rfl

theorem except_bind_ok {ε α β : Type} {x : Except ε α} {f : α → Except ε β} {b : β} (h : (x >>= f) = .ok b) :
    ∃ a, x = .ok a ∧ f a = .ok b := by
  cases x with
  | error e => cases h
  | ok a => exact ⟨a, rfl, h⟩

/-! ## Raising, committing, running -/

theorem raise_of_running {s : State} (h : s.fault = none) (f : Fault) :
    raise s f = .next { s with fault := some f } := by simp [raise, h]

@[simp] theorem commit_ok (s t : State) : commit s (.ok t) = .next t := rfl
@[simp] theorem commit_error (s : State) (f : Fault) : commit s (.error f) = raise s f := rfl

/-- A command always answers a next state: its effect, or the state before it with the fault recorded. -/
theorem commit_cases {s t : State} {e : Except Fault State} (h : commit s e = .next t) :
    e = .ok t ∨ ∃ f, e = .error f ∧ t = { s with fault := some (s.fault.getD f) } := by
  cases e with
  | ok u => exact .inl (by simpa [commit] using h)
  | error f => exact .inr ⟨f, rfl, by simpa [commit, raise, eq_comm] using h⟩

theorem whenRunning_of_running {s : State} (h : s.fault = none) (k : Host.Outcome State Fault Refusal) :
    whenRunning s k = k := by simp [whenRunning, h]

theorem whenRunning_of_faulted {s : State} {f : Fault} (h : s.fault = some f) (k : Host.Outcome State Fault Refusal) :
    whenRunning s k = .fault f := by simp [whenRunning, h]

theorem whenRunning_next {s t : State} {k : Host.Outcome State Fault Refusal} (h : whenRunning s k = .next t) :
    s.fault = none ∧ k = .next t := by
  cases hf : s.fault with
  | none => exact ⟨rfl, by simpa [whenRunning, hf] using h⟩
  | some f => simp [whenRunning, hf] at h

/-! ## Range checks -/

theorem rangeCheck_ok_iff (c : Config) (a n : Nat) : rangeCheck c a n = .ok () ↔ a + n ≤ c.shmBytes := by
  unfold rangeCheck; split
  · exact ⟨fun h => by simp at h, fun h => absurd h (by omega)⟩
  · exact ⟨fun _ => by omega, fun _ => rfl⟩

theorem rangeCheck_of_fits {c : Config} {a n : Nat} (h : a + n ≤ c.shmBytes) : rangeCheck c a n = .ok () :=
  (rangeCheck_ok_iff c a n).2 h

theorem rangeCheck_of_passes {c : Config} {a n : Nat} (h : c.shmBytes < a + n) :
    rangeCheck c a n = .error (.shmRange (max a c.shmBytes)) := if_pos h

theorem romCheck_of_fits {c : Config} {i n : Nat} (h : i + n ≤ c.romSize) : romCheck c i n = .ok () :=
  if_neg (by omega)

theorem romCheck_of_passes {c : Config} {i n : Nat} (h : c.romSize < i + n) :
    romCheck c i n = .error (.romRange (max i c.romSize)) := if_pos h

/-! ## Reads -/

theorem memRead16_of_written {s : State} {a : Nat} {h l : Byte} (hr : a + 2 ≤ s.cfg.shmBytes)
    (hh : Memory.read s.shm a = some h) (hl : Memory.read s.shm (a + 1) = some l) :
    memRead16 s a = .ok (joinBytes h l) := by
  simp [memRead16, rangeCheck_of_fits hr, hh, hl]

theorem memRead16_first_unwritten {s : State} {a : Nat} (hr : a + 2 ≤ s.cfg.shmBytes)
    (hh : Memory.read s.shm a = none) : memRead16 s a = .error (.uninitRead a) := by
  simp [memRead16, rangeCheck_of_fits hr, hh]

theorem memRead16_second_unwritten {s : State} {a : Nat} {h : Byte} (hr : a + 2 ≤ s.cfg.shmBytes)
    (hh : Memory.read s.shm a = some h) (hl : Memory.read s.shm (a + 1) = none) :
    memRead16 s a = .error (.uninitRead (a + 1)) := by
  simp [memRead16, rangeCheck_of_fits hr, hh, hl]

theorem memRead16_ok {s : State} {a : Nat} {w : Word} (h : memRead16 s a = .ok w) :
    ∃ b c, Memory.read s.shm a = some b ∧ Memory.read s.shm (a + 1) = some c ∧ w = joinBytes b c := by
  obtain ⟨-, -, h⟩ := except_bind_ok h
  split at h
  · next b c hb hc => exact ⟨b, c, hb, hc, by simpa [eq_comm] using h⟩
  · cases h
  · cases h

theorem decRead_of_lt {s : State} {i : Nat} (h : i < s.cfg.romSize) : decRead s i = .ok (s.dec.getD i 0x00#8) := by
  simp [decRead, romCheck_of_fits (show i + 1 ≤ s.cfg.romSize from h)]

theorem decReadLE16_of_lt {s : State} {i : Nat} (h : i + 1 < s.cfg.romSize) :
    decReadLE16 s i = .ok (joinBytes (s.dec.getD (i + 1) 0x00#8) (s.dec.getD i 0x00#8)) := by
  simp [decReadLE16, decRead_of_lt h, decRead_of_lt (Nat.lt_of_succ_lt h)]

theorem decBytes_length {s : State} {i n : Nat} (h : i + n ≤ s.dec.length) : (decBytes s i n).length = n := by
  simp [decBytes]; omega

theorem decBytes_getElem? (s : State) {i n x : Nat} (h : x < n) : (decBytes s i n)[x]? = s.dec[i + x]? := by
  simp [decBytes, h]

/-! ## Bytes of words -/

/-- The statements' `++` on bytes is the model's (spec/00_scope.md R10). -/
theorem append_eq_joinBytes (a b : Byte) : (a ++ b : BitVec (8 + 8)) = joinBytes a b := rfl

theorem joinBytes_getLsbD (a b : Byte) (i : Nat) :
    (joinBytes a b).getLsbD i = if i < 8 then b.getLsbD i else a.getLsbD (i - 8) :=
  BitVec.getLsbD_append (x := a) (y := b)

@[simp] theorem joinBytes_hi_lo (w : Word) : joinBytes (hiByte w) (loByte w) = w := by
  apply BitVec.eq_of_getLsbD_eq
  intro i hi
  rw [joinBytes_getLsbD]
  split
  · next h => simp [loByte, h]
  · next h =>
    have : i - 8 < 8 ∧ 8 + (i - 8) = i := by omega
    simp [hiByte, this]

@[simp] theorem hiByte_joinBytes (a b : Byte) : hiByte (joinBytes a b) = a := by
  apply BitVec.eq_of_getLsbD_eq
  intro i hi
  simp [hiByte, joinBytes_getLsbD, hi]

@[simp] theorem loByte_joinBytes (a b : Byte) : loByte (joinBytes a b) = b := by
  apply BitVec.eq_of_getLsbD_eq
  intro i hi
  simp [loByte, joinBytes_getLsbD, hi]

theorem pairs_getElem? (ws : List Word) (k : Nat) :
    (ws.flatMap fun w => [hiByte w, loByte w])[2 * k]? = ws[k]?.map hiByte ∧
      (ws.flatMap fun w => [hiByte w, loByte w])[2 * k + 1]? = ws[k]?.map loByte := by
  induction ws generalizing k with
  | nil => simp
  | cons w ws ih =>
    cases k with
    | zero => simp
    | succ k => simpa [Nat.mul_add] using ih k

@[simp] theorem pairs_length (ws : List Word) : (ws.flatMap fun w => [hiByte w, loByte w]).length = 2 * ws.length := by
  induction ws with
  | nil => rfl
  | cons w ws ih => simp at ih; simp [ih]; omega

@[simp] theorem storeBytes_length (s : State) : (storeBytes s).length = 128 := by
  simp only [storeBytes, pairs_length, storeReadAll, Vector.length_toList]

/-- The store's bytes: word `k` lies at offsets 2k and 2k + 1, high byte first. -/
theorem storeBytes_getElem? (s : State) (k : Fin 64) :
    (storeBytes s)[2 * k.val]? = some (hiByte s.store[k]) ∧
      (storeBytes s)[2 * k.val + 1]? = some (loByte s.store[k]) := by
  obtain ⟨h, l⟩ := pairs_getElem? s.store.toList k
  rw [storeBytes, storeReadAll, h, l]
  simp

end Sys2Proof.Machine
end

