-- ==== Sys2Proof/Laws/Operands.lean ====
section
/-! SUPPORT. The operand forms and the header read. -/

namespace Sys2Proof.Machine

/-- `2·W = D` for an even destination, and `2·W = D - 1` for an odd one (spec/30_encoding.md R83, R84). -/
theorem two_wordIndex (dest : Word) : 2 * wordIndex dest = dest.toNat - dest.toNat % 2 := by
  simp [wordIndex, Nat.shiftRight_eq_div_pow]; omega

theorem descriptorOffset_lt (sub : Byte) : descriptorOffset sub + 8 ≤ 512 := by
  have : (sub &&& 0x3F#8).toNat ≤ 0x3F := by
    rw [BitVec.toNat_and]; exact Nat.and_le_right
  simp only [descriptorOffset]; omega

theorem oddDestCheck_of_bad {c : Config} {dest : Word} (h : dest.toNat % 2 = 1 ∧ c.oddDest = .fault) :
    oddDestCheck c dest = .error (.oddDest dest.toNat) := if_pos h

theorem oddDestCheck_of_good {c : Config} {dest : Word} (h : ¬(dest.toNat % 2 = 1 ∧ c.oddDest = .fault)) :
    oddDestCheck c dest = .ok () := if_neg h

theorem wordBase_of_bad {c : Config} {dest : Word} (h : dest.toNat % 2 = 1 ∧ c.oddDest = .fault) :
    wordBase c dest = .error (.oddDest dest.toNat) := by simp [wordBase, oddDestCheck_of_bad h]

theorem wordBase_of_good {c : Config} {dest : Word} (h : ¬(dest.toNat % 2 = 1 ∧ c.oddDest = .fault)) :
    wordBase c dest = .ok (2 * wordIndex dest) := by simp [wordBase, oddDestCheck_of_good h]

theorem wordBase_ok {c : Config} {dest : Word} {b : Nat} (h : wordBase c dest = .ok b) : b = 2 * wordIndex dest := by
  obtain ⟨-, -, h⟩ := except_bind_ok h
  simpa [eq_comm] using h

/-- What a header read that succeeds has read. -/
theorem readHeader_ok {s : State} {h : Header} (hr : readHeader s = .ok h) :
    ∃ b0 b1 b2 b3 b4 b5, Memory.read s.shm 0x10 = some b0 ∧ Memory.read s.shm 0x11 = some b1 ∧
      Memory.read s.shm 0x12 = some b2 ∧ Memory.read s.shm 0x13 = some b3 ∧ Memory.read s.shm 0x14 = some b4 ∧
      Memory.read s.shm 0x15 = some b5 ∧ h = ⟨joinBytes b0 b1, joinBytes b2 b3, joinBytes b4 b5⟩ := by
  obtain ⟨o, ho, hr⟩ := except_bind_ok hr
  obtain ⟨d, hd, hr⟩ := except_bind_ok hr
  obtain ⟨p, hp, hr⟩ := except_bind_ok hr
  obtain ⟨b0, b1, h0, h1, rfl⟩ := memRead16_ok ho
  obtain ⟨b2, b3, h2, h3, rfl⟩ := memRead16_ok hd
  obtain ⟨b4, b5, h4, h5, rfl⟩ := memRead16_ok hp
  exact ⟨b0, b1, b2, b3, b4, b5, h0, h1, h2, h3, h4, h5, by simpa [eq_comm] using hr⟩

theorem readHeader_of_written {s : State} {b0 b1 b2 b3 b4 b5 : Byte} (hs : 0x16 ≤ s.cfg.shmBytes)
    (h0 : Memory.read s.shm 0x10 = some b0) (h1 : Memory.read s.shm 0x11 = some b1)
    (h2 : Memory.read s.shm 0x12 = some b2) (h3 : Memory.read s.shm 0x13 = some b3)
    (h4 : Memory.read s.shm 0x14 = some b4) (h5 : Memory.read s.shm 0x15 = some b5) :
    readHeader s = .ok ⟨joinBytes b0 b1, joinBytes b2 b3, joinBytes b4 b5⟩ := by
  simp [readHeader, memRead16_of_written (s := s) (a := 0x10) (by omega) h0 h1,
    memRead16_of_written (s := s) (a := 0x12) (by omega) h2 h3, memRead16_of_written (s := s) (a := 0x14) (by omega) h4 h5]

end Sys2Proof.Machine
end

