-- ==== Sys2Proof/Laws/Commands.lean ====
section
/-! SUPPORT. Once for each command, for the dispatcher, for a handshake write and for a step, everything it can do. -/

namespace Sys2Proof.Machine

/-- Everything a command's body can do to a running state (spec/42_dispatcher.md R146): record a fault, write one range
below SHM_BYTES, write the whole store, or append one diagnostic record. -/
inductive CommandResult (s : State) : State → Prop where
  | raised (f : Fault) : CommandResult s { s with fault := some f }
  | wroteShm (a : Nat) (bs : List Byte) (h : bs = [] ∨ a + bs.length ≤ s.cfg.shmBytes) :
      CommandResult s (memWriteBytes s a bs)
  | wroteStore (v : Vector Word 64) : CommandResult s (storeWriteAll s v)
  | emitted (d : DiagRecord) : CommandResult s (emitDiag s d)

theorem rangeCheck_ok {c : Config} {a n : Nat} {u : Unit} (h : rangeCheck c a n = .ok u) : a + n ≤ c.shmBytes :=
  (rangeCheck_ok_iff c a n).1 h

theorem loadsetEffect_ok {s t : State} {dest : Word} (h : loadsetEffect s dest = .ok t) :
    2 * wordIndex dest + 128 ≤ s.cfg.shmBytes ∧ t = memWriteBytes s (2 * wordIndex dest) (storeBytes s) := by
  obtain ⟨b, hb, h⟩ := except_bind_ok h
  obtain ⟨_, hr, h⟩ := except_bind_ok h
  cases wordBase_ok hb
  exact ⟨rangeCheck_ok hr, by simpa [eq_comm] using h⟩

theorem rdswEffect_ok {s t : State} {dest : Word} (h : rdswEffect s dest = .ok t) :
    2 * wordIndex dest + 2 ≤ s.cfg.shmBytes ∧ t = memWrite16 s (2 * wordIndex dest) s.sw := by
  obtain ⟨b, hb, h⟩ := except_bind_ok h
  obtain ⟨_, hr, h⟩ := except_bind_ok h
  cases wordBase_ok hb
  exact ⟨rangeCheck_ok hr, by simpa [swRead, eq_comm] using h⟩

theorem savesetEffect_ok {s t : State} {dest : Word} (h : savesetEffect s dest = .ok t) :
    2 * wordIndex dest + 128 ≤ s.cfg.shmBytes ∧ ∃ bytes, Memory.readBytes s.shm (2 * wordIndex dest) 128 = .ok bytes ∧
      t = storeWriteAll s (wordsOfBytes bytes) := by
  obtain ⟨b, hb, h⟩ := except_bind_ok h
  obtain ⟨_, hr, h⟩ := except_bind_ok h
  obtain ⟨bytes, hx, ht⟩ := except_bind_ok h
  cases wordBase_ok hb
  refine ⟨rangeCheck_ok hr, bytes, ?_, by cases ht; rfl⟩
  unfold shmBytesAt at hx
  split at hx
  · cases hx
  · next hy => cases hx; exact hy

theorem protResponse_ok {s : State} {d : Nat} {sub : Byte} {bs : List Byte} (h : protResponse s d sub = .ok bs) :
    bs = [] ∨ d + bs.length ≤ s.cfg.shmBytes := by
  unfold protResponse at h
  split at h
  · unfold overrideResponse at h
    split at h
    · exact .inl (by simpa [eq_comm] using h)
    · obtain ⟨_, hr, h⟩ := except_bind_ok h
      cases h
      exact .inr (rangeCheck_ok hr)
  · obtain ⟨k, -, h⟩ := except_bind_ok h
    unfold descriptorPayload at h
    split at h
    · exact .inl (by simpa [eq_comm] using h)
    · obtain ⟨-, -, h⟩ := except_bind_ok h
      obtain ⟨_, hr, h⟩ := except_bind_ok h
      cases h
      have : (decBytes s (s.cfg.payloadBase + k.start.toNat) k.len.toNat).length ≤ k.len.toNat := by
        simp [decBytes]
      have := rangeCheck_ok hr
      exact .inr (by omega)

theorem protEffect_ok {s t : State} {dest : Word} {sub : Byte} (h : protEffect s dest sub = .ok t) :
    ∃ bs, protResponse s dest.toNat sub = .ok bs ∧ t = memWriteBytes s dest.toNat bs := by
  obtain ⟨-, -, h⟩ := except_bind_ok h
  obtain ⟨bs, hb, h⟩ := except_bind_ok h
  exact ⟨bs, hb, by simpa [byteDest, eq_comm] using h⟩

theorem commit_result {s t : State} {e : Except Fault State} (hf : s.fault = none) (h : commit s e = .next t)
    (hok : e = .ok t → CommandResult s t) : CommandResult s t := by
  rcases commit_cases h with he | ⟨f, -, rfl⟩
  · exact hok he
  · simpa [hf] using CommandResult.raised f

/-- A command's meaning, inverted. -/
theorem exec_command_next {i : Instr} {s t : State} (hi : i.format = .cmd) (h : exec i s = .next t) :
    s.fault = none ∧ CommandResult s t := by
  cases i with
  | loadset q d p =>
    obtain ⟨hf, h⟩ := whenRunning_next h
    refine ⟨hf, commit_result hf h fun he => ?_⟩
    obtain ⟨hr, rfl⟩ := loadsetEffect_ok he
    exact .wroteShm _ _ (.inr (by simpa using hr))
  | rdsw q d p =>
    obtain ⟨hf, h⟩ := whenRunning_next h
    refine ⟨hf, commit_result hf h fun he => ?_⟩
    obtain ⟨hr, rfl⟩ := rdswEffect_ok he
    exact .wroteShm _ [hiByte s.sw, loByte s.sw] (.inr (by simpa using hr))
  | prot q d p =>
    obtain ⟨hf, h⟩ := whenRunning_next h
    refine ⟨hf, commit_result hf h fun he => ?_⟩
    obtain ⟨bs, hb, rfl⟩ := protEffect_ok he
    exact .wroteShm _ _ (protResponse_ok hb)
  | saveset q d p =>
    obtain ⟨hf, h⟩ := whenRunning_next h
    refine ⟨hf, commit_result hf h fun he => ?_⟩
    obtain ⟨-, bytes, -, rfl⟩ := savesetEffect_ok he
    exact .wroteStore _
  | factdef q d p =>
    obtain ⟨hf, h⟩ := whenRunning_next h
    refine ⟨hf, ?_⟩
    cases h
    unfold factdefEffect
    split
    · exact .wroteStore _
    · simpa [memWriteBytes] using CommandResult.wroteShm (s := s) 0 [] (.inl rfl)
  | unrecognised o d p =>
    obtain ⟨hf, h⟩ := whenRunning_next h
    cases h
    exact ⟨hf, .emitted _⟩
  | hsw0 | hsw1 | hsw2 | hsw3 | statrd => cases hi

theorem decodeHeader_format (o d p : Word) : (decodeHeader o d p).format = .cmd := by
  unfold decodeHeader; split <;> rfl

/-- The dispatcher runs the meaning of the command the header decodes to. -/
theorem routeCommand_eq_exec (h : Header) (s : State) :
    routeCommand h s = exec (decodeHeader h.opcode h.dest h.param) s := by
  unfold routeCommand decodeHeader; cases routeOp h.opcode <;> rfl

theorem dispatch_of_header {s : State} {h : Header} (hr : readHeader s = .ok h) :
    dispatch s = exec (decodeHeader h.opcode h.dest h.param) s := by
  simp [dispatch, hr, routeCommand_eq_exec]

theorem dispatch_of_error {s : State} {f : Fault} (hf : s.fault = none) (hr : readHeader s = .error f) :
    dispatch s = .next { s with fault := some f } := by
  simp [dispatch, hr, raise_of_running hf]

/-- A dispatch, inverted. -/
theorem dispatch_next {s t : State} (hf : s.fault = none) (h : dispatch s = .next t) : CommandResult s t := by
  cases hr : readHeader s with
  | error f =>
    rw [dispatch_of_error hf hr] at h
    cases h; exact .raised f
  | ok k =>
    rw [dispatch_of_header hr] at h
    exact (exec_command_next (decodeHeader_format _ _ _) h).2

theorem exec_hsw (n : Fin 4) (v m : Word) (s : State) : exec (.hsw n v m) s = handshakeWrite n v m s := by
  match n with
  | 0 => rfl
  | 1 => rfl
  | 2 => rfl
  | 3 => rfl

/-- A handshake write, inverted. -/
theorem handshakeWrite_next {n : Fin 4} {v m : Word} {s t : State} (h : handshakeWrite n v m s = .next t) :
    s.fault = none ∧
      ((allSentinel (writeCell s n v m).hs = false ∧ t = writeCell s n v m) ∨
        (allSentinel (writeCell s n v m).hs = true ∧ CommandResult (clearCells s) t)) := by
  obtain ⟨hf, h⟩ := whenRunning_next h
  refine ⟨hf, ?_⟩
  split at h
  · next hs => exact .inr ⟨hs, dispatch_next (s := clearCells s) (by simpa using hf) h⟩
  · next hs => exact .inl ⟨by simpa using hs, by simpa [eq_comm] using h⟩

theorem hostAccess_next {s t u : State} {a n : Nat} (h : hostAccess s a n t = .next u) :
    u = t ∧ a + n ≤ s.cfg.shmBytes ∧ ¬(n = 2 ∧ a % 2 = 1) := by
  unfold hostAccess at h
  split at h
  · cases h
  · split at h
    · cases h
    · cases h; exact ⟨rfl, by omega, by assumption⟩

/-- A step takes the first event of a running state. -/
theorem step_next {s t : State} (h : step s = .next t) :
    s.fault = none ∧ ∃ e es, s.events = e :: es ∧ runEvent e { s with events := es } = .next t := by
  obtain ⟨hf, h⟩ := whenRunning_next h
  refine ⟨hf, ?_⟩
  split at h
  · cases h
  · next e es he => exact ⟨e, es, he, h⟩

theorem step_of_event {s : State} {e : Event} {es : List Event} (hf : s.fault = none) (he : s.events = e :: es) :
    step s = runEvent e { s with events := es } := by
  simp [step, nextEvent, whenRunning, hf, he]

/-- The instruction of an accepted bus write is the handshake write of that port. -/
theorem decodeBusWrite_ok {p : Nat} {v m : Word} {i : Instr} (h : decodeBusWrite p v m = .ok i) :
    ∃ n : Fin 4, p = n.val ∧ i = .hsw n v m := by
  unfold decodeBusWrite at h
  split at h
  · exact ⟨0, rfl, by cases h; rfl⟩
  · exact ⟨1, rfl, by cases h; rfl⟩
  · exact ⟨2, rfl, by cases h; rfl⟩
  · exact ⟨3, rfl, by cases h; rfl⟩
  · cases h
  · cases h

theorem decodeBusRead_ok {p : Nat} {i : Instr} (h : decodeBusRead p = .ok i) : p = 4 ∧ i = .statrd := by
  unfold decodeBusRead at h
  split at h
  · next hp => cases h; exact ⟨hp, rfl⟩
  · split at h <;> cases h

theorem busAccess_next {d : Except Reject Instr} {s t : State} (h : busAccess d s = .next t) :
    ∃ i, d = .ok i ∧ exec i s = .next t := by
  cases d with
  | ok i => exact ⟨i, rfl, h⟩
  | error r => cases h

/-- Everything one event can do to a running state. -/
inductive EventResult (s : State) : Event → State → Prop where
  | merged (n : Fin 4) (v m : Word) (h : allSentinel (writeCell s n v m).hs = false) :
      EventResult s (.busWrite n.val v m) (writeCell s n v m)
  | dispatched (n : Fin 4) (v m : Word) (h : allSentinel (writeCell s n v m).hs = true) {t : State}
      (hd : dispatch (clearCells s) = .next t) (ht : CommandResult (clearCells s) t) :
      EventResult s (.busWrite n.val v m) t
  | statusRead : EventResult s (.busRead 4) (reply s (.status s.cfg.statusValue))
  | wrote8 (a : Nat) (v : Byte) (h : a + 1 ≤ s.cfg.shmBytes) : EventResult s (.hostWrite8 a v) (memWrite8 s a v)
  | wrote16 (a : Nat) (v : Word) (h : a + 2 ≤ s.cfg.shmBytes) : EventResult s (.hostWrite16 a v) (memWrite16 s a v)
  | read8 (a : Nat) : EventResult s (.hostRead8 a) (reply s (.bytes [Memory.read s.shm a]))
  | read16 (a : Nat) :
      EventResult s (.hostRead16 a) (reply s (.bytes [Memory.read s.shm a, Memory.read s.shm (a + 1)]))
  | reset : EventResult s .deviceReset (clearCells s)
  | switched (v : Word) : EventResult s (.setSwitch v) { s with sw := v }

theorem runEvent_next {s t : State} {e : Event} (hf : s.fault = none) (h : runEvent e s = .next t) :
    EventResult s e t := by
  cases e with
  | busWrite p v m =>
    obtain ⟨i, hd, hx⟩ := busAccess_next h
    obtain ⟨n, rfl, rfl⟩ := decodeBusWrite_ok hd
    rw [exec_hsw] at hx
    have hx' := hx
    rw [handshakeWrite, whenRunning_of_running hf] at hx'
    rcases (handshakeWrite_next hx).2 with ⟨hs, rfl⟩ | ⟨hs, hr⟩
    · exact .merged n v m hs
    · rw [if_pos hs] at hx'
      exact .dispatched n v m hs hx' hr
  | busRead p =>
    obtain ⟨i, hd, hx⟩ := busAccess_next h
    obtain ⟨rfl, rfl⟩ := decodeBusRead_ok hd
    cases (whenRunning_next hx).2
    exact .statusRead
  | hostWrite8 a v => unfold runEvent hostWrite8 at h; obtain ⟨rfl, hr, -⟩ := hostAccess_next h; exact .wrote8 a v hr
  | hostWrite16 a v => unfold runEvent hostWrite16 at h; obtain ⟨rfl, hr, -⟩ := hostAccess_next h; exact .wrote16 a v hr
  | hostRead8 a => unfold runEvent hostRead8 at h; obtain ⟨rfl, -, -⟩ := hostAccess_next h; exact .read8 a
  | hostRead16 a => unfold runEvent hostRead16 at h; obtain ⟨rfl, -, -⟩ := hostAccess_next h; exact .read16 a
  | deviceReset => cases h; exact .reset
  | setSwitch v => cases h; exact .switched v

/-- A step, inverted: the one lemma that invariants are proved from. -/
theorem step_result {s t : State} (h : step s = .next t) :
    s.fault = none ∧ ∃ e es, s.events = e :: es ∧ EventResult { s with events := es } e t := by
  obtain ⟨hf, e, es, he, hr⟩ := step_next h
  exact ⟨hf, e, es, he, runEvent_next (by simpa using hf) hr⟩

end Sys2Proof.Machine
end

