-- ==== Sys2Proof/Laws/Decryptor.lean ====
section
/-! SUPPORT. The decrypted table byte by byte. -/

namespace Sys2Proof.Machine

@[simp] theorem decryptFrom_length (t : Vector Byte 256) (i : Nat) (raw : List Byte) :
    (decryptFrom t i raw).length = raw.length := by
  induction raw generalizing i with
  | nil => rfl
  | cons b bs ih => simp [decryptFrom, ih]

@[simp] theorem decrypt_length (t : Vector Byte 256) (raw : List Byte) : (decrypt t raw).length = raw.length := by
  simp [decrypt]

theorem decryptFrom_getElem? (t : Vector Byte 256) (i : Nat) (raw : List Byte) (k : Nat) :
    (decryptFrom t i raw)[k]? = raw[k]?.map (· + decryptKey t (i + k)) := by
  induction raw generalizing i k with
  | nil => simp [decryptFrom]
  | cons b bs ih =>
    cases k with
    | zero => simp [decryptFrom]
    | succ k => simp [decryptFrom, ih, Nat.add_assoc, Nat.add_comm 1]

theorem decrypt_getElem? (t : Vector Byte 256) (raw : List Byte) (k : Nat) :
    (decrypt t raw)[k]? = raw[k]?.map (· + decryptKey t k) := by
  simp [decrypt, decryptFrom_getElem?]

end Sys2Proof.Machine
end

