-- ==== Sys2Proof/Laws/PerInstr.lean ====
section
/-! SUPPORT. One lemma per constructor: the encoding of a well-formed instruction lies in its row of spec/opcode_table.json. -/

namespace Sys2Proof.Laws.MatchesRow

/-- The mask of an instruction's row. -/
def mask : Instr → Word
  | .loadset _ _ _ | .rdsw _ _ _ | .prot _ _ _ | .saveset _ _ _ | .factdef _ _ _ => 0xFF00#16
  | .unrecognised _ _ _ => 0x0000#16
  | .hsw0 _ _ | .hsw1 _ _ | .hsw2 _ _ | .hsw3 _ _ | .statrd => 0x0007#16

/-- The match of an instruction's row. -/
def pattern : Instr → Word
  | .loadset _ _ _ => 0x0200#16
  | .rdsw _ _ _ => 0x0300#16
  | .prot _ _ _ => 0x0400#16
  | .saveset _ _ _ => 0x4200#16
  | .factdef _ _ _ => 0x4300#16
  | .unrecognised _ _ _ => 0x0000#16
  | .hsw0 _ _ => 0x0000#16
  | .hsw1 _ _ => 0x0001#16
  | .hsw2 _ _ => 0x0002#16
  | .hsw3 _ _ => 0x0003#16
  | .statrd => 0x0004#16

/-- The first word of the encoding matches the row, and an instruction that is not in a row of its own opcode (an
unrecognised command) matches no row that has one. -/
def Statement (i : Instr) : Prop :=
  i.wf = true → (encodeWords i).1 &&& mask i = pattern i ∧
    (i.format = .cmd → mask i = 0x0000#16 →
      (encodeWords i).1 &&& 0xFF00#16 ∉ ([0x0200#16, 0x0300#16, 0x0400#16, 0x4200#16, 0x4300#16] : List Word))

theorem joinBytes_getLsbD (a b : Byte) (i : Nat) :
    (joinBytes a b).getLsbD i = if i < 8 then b.getLsbD i else a.getLsbD (i - 8) := by
  unfold joinBytes
  rw [show (a ++ b : Word) = (a ++ b : BitVec (8 + 8)) from rfl, BitVec.getLsbD_append]

/-- A command's opcode word under its row's mask is its opcode byte. -/
theorem joinBytes_and (a b : Byte) : joinBytes a b &&& 0xFF00#16 = joinBytes a 0x00#8 := by
  refine BitVec.eq_of_getLsbD_eq fun i h => ?_
  have hm : (0xFF00#16).getLsbD i = decide (8 ≤ i) := by revert i; decide
  rw [BitVec.getLsbD_and, hm, joinBytes_getLsbD, joinBytes_getLsbD]
  by_cases h8 : i < 8
  · simp [h8]
  · simp [h8, Nat.le_of_not_lt h8]

theorem loadset (qual : Byte) (dest param : Word) : Statement (.loadset qual dest param) :=
  fun _ => ⟨joinBytes_and _ _, fun _ h => by simp [mask] at h⟩

theorem rdsw (qual : Byte) (dest param : Word) : Statement (.rdsw qual dest param) :=
  fun _ => ⟨joinBytes_and _ _, fun _ h => by simp [mask] at h⟩

theorem prot (qual : Byte) (dest param : Word) : Statement (.prot qual dest param) :=
  fun _ => ⟨joinBytes_and _ _, fun _ h => by simp [mask] at h⟩

theorem saveset (qual : Byte) (dest param : Word) : Statement (.saveset qual dest param) :=
  fun _ => ⟨joinBytes_and _ _, fun _ h => by simp [mask] at h⟩

theorem factdef (qual : Byte) (dest param : Word) : Statement (.factdef qual dest param) :=
  fun _ => ⟨joinBytes_and _ _, fun _ h => by simp [mask] at h⟩

theorem unrecognised (opcode dest param : Word) : Statement (.unrecognised opcode dest param) := by
  refine fun h => ⟨by simp [encodeWords, mask, pattern], fun _ _ => ?_⟩
  simp only [encodeWords]
  intro hm
  have hb : opcode.extractLsb' 8 8 = (opcode &&& 0xFF00#16).extractLsb' 8 8 := by
    rw [BitVec.extractLsb'_and, show (0xFF00#16).extractLsb' 8 8 = BitVec.allOnes 8 by decide, BitVec.and_allOnes]
  revert h
  simp only [Instr.wf, hb]
  generalize opcode &&& 0xFF00#16 = x at hm
  simp only [List.mem_cons, List.not_mem_nil, or_false] at hm
  rcases hm with rfl | rfl | rfl | rfl | rfl <;> decide

theorem hsw0 (value mask : Word) : Statement (.hsw0 value mask) :=
  fun _ => ⟨by simp [encodeWords, MatchesRow.mask, pattern], fun h => by simp [Instr.format] at h⟩

theorem hsw1 (value mask : Word) : Statement (.hsw1 value mask) :=
  fun _ => ⟨by simp [encodeWords, MatchesRow.mask, pattern], fun h => by simp [Instr.format] at h⟩

theorem hsw2 (value mask : Word) : Statement (.hsw2 value mask) :=
  fun _ => ⟨by simp [encodeWords, MatchesRow.mask, pattern], fun h => by simp [Instr.format] at h⟩

theorem hsw3 (value mask : Word) : Statement (.hsw3 value mask) :=
  fun _ => ⟨by simp [encodeWords, MatchesRow.mask, pattern], fun h => by simp [Instr.format] at h⟩

theorem statrd : Statement .statrd :=
  fun _ => ⟨rfl, fun h => by simp [Instr.format] at h⟩

end Sys2Proof.Laws.MatchesRow
end

