-- ==== Sys2Proof/Laws/Run.lean ====
section
/-! SUPPORT. Runs of several steps, and the step of a full sentinel write. -/

namespace Sys2Proof.Machine

@[simp] theorem runSteps_zero (s : State) : runSteps 0 s = .next s := rfl

theorem runSteps_succ (k : Nat) (s : State) :
    runSteps (k + 1) s = match step s with
      | .next t => runSteps k t
      | .fault f => .fault f
      | .refused r => .refused r := rfl

theorem runSteps_succ_of_next {s t : State} (k : Nat) (h : step s = .next t) : runSteps (k + 1) s = runSteps k t := by
  simp [runSteps_succ, h]

theorem runSteps_one (s : State) : runSteps 1 s = step s := by
  rw [runSteps_succ]; cases step s <;> rfl

theorem core_run_succ (M : Host.Core) (k : Nat) (s : M.State) :
    M.run (k + 1) s = match M.step s with
      | .next t => M.run k t
      | .fault f => .fault f
      | .refused r => .refused r := by
  cases h : M.step s <;> simp [Host.Core.run, h]

/-- `runSteps` is the host's run of the core. -/
theorem runSteps_eq_core_run (k : Nat) (s : State) : Host.Core.run Sys2Proof.core k s = runSteps k s := by
  induction k generalizing s with
  | zero => rfl
  | succ k ih =>
    refine (core_run_succ Sys2Proof.core k s).trans ?_
    rw [runSteps_succ]
    have hs : Sys2Proof.core.step s = step s := rfl
    cases h : step s with
    | next t => rw [hs.trans h]; exact ih t
    | fault f => rw [hs.trans h]; rfl
    | refused r => rw [hs.trans h]; rfl

theorem decodeBusWrite_port (n : Fin 4) (v m : Word) : decodeBusWrite n.val v m = .ok (.hsw n v m) := by
  match n with
  | 0 => rfl
  | 1 => rfl
  | 2 => rfl
  | 3 => rfl

/-- A full sentinel write sets its cell, or clears all four and dispatches. -/
theorem step_of_sentinelWrite {s : State} {n : Fin 4} {es : List Event} (hf : s.fault = none)
    (he : s.events = .busWrite n.val sentinel sentinel :: es) :
    step s =
      if allSentinel (s.hs.set n sentinel) then
        dispatch { s with hs := Vector.replicate 4 0x0000#16, events := es }
      else .next { s with hs := s.hs.set n sentinel, events := es } := by
  rw [step_of_event hf he]
  simp only [runEvent, busAccess, decodeBusWrite_port, exec_hsw, handshakeWrite]
  rw [whenRunning_of_running (s := { s with events := es }) hf]
  simp only [writeCell, merge_full, trigger, clearCells]

end Sys2Proof.Machine
end

