-- ==== Sys2Proof/Tests/Slice0.lean ====
section
/-! SUPPORT. Checks of well-formedness, decoding and single steps, and one state for each statement's hypotheses. Expected values
are those of spec/95_test_vectors.md (its vector ids stand beside them) or computed by hand from the rule named. -/

namespace Sys2Proof.Tests

open Sys2Proof.Machine

set_option Elab.async false

/-! ## A small machine (spec/95_test_vectors.md §2.1 and §2.6, with the table's two bases at 0 and ROM_SIZE 0x420) -/

/-- Descriptors 5 to 9 and 0x30 and the two payloads of §2.6. -/
def table : List Byte :=
  List.replicate 0x28 0 ++ [0, 0, 0, 4, 3, 0, 0, 0] ++ [0x11, 0x22, 0xFF, 0xFF, 0, 0, 0x33, 0x44] ++
    [0, 0, 0xFF, 0xFF, 2, 0, 0, 0] ++ [0, 0, 0x28, 0, 8, 0, 0, 0] ++ [0, 0, 0, 4, 0, 0x10, 0, 0] ++
    List.replicate 0x130 0 ++ [0, 0, 0x10, 4, 2, 0, 0, 0] ++ List.replicate 0x278 0 ++ [0xAA, 0xBB, 0xCC] ++
    List.replicate 0xD 0 ++ [0xDE, 0xAD] ++ List.replicate 0xE 0

/-- T_NORMAL of §2.1. -/
def keys : Vector Byte 256 := Vector.ofFn fun k => BitVec.ofNat 8 k

/-- T_ALT of §2.1. -/
def altKeys : Vector Byte 256 := Vector.ofFn fun k => BitVec.ofNat 8 k ^^^ 0x80

/-- The tests give `dec` directly, as §2.6 does. -/
def config : Config where
  profile     := ⟨.normal, [], none⟩
  romSize     := 0x420
  tNormal     := keys
  tAlt        := altKeys
  descBase    := 0
  payloadBase := 0
  shmBytes    := 0x1000
  statusValue := 0x1234
  oddDest     := .fault

/-- Profile PA: the override of sub-command 0x30. -/
def profileA : Profile := ⟨.normal, [(0x30, [1, 2, 3, 4, 5])], none⟩

/-- FD of profile PF. -/
def defaults : Vector Word 64 := Vector.ofFn fun k => BitVec.ofNat 16 (0xA000 + k)

/-- Profile PF. -/
def profileF : Profile := ⟨.normal, [], some defaults⟩

/-- A fresh state of §2.1 with the switch of vector W1. -/
def fresh : State where
  cfg     := config
  hs      := #v[0, 0, 0, 0]
  dec     := table
  shm     := []
  store   := Vector.ofFn fun k => BitVec.ofNat 16 (k * 256 + (0xFF - k))
  sw      := 0x5AA5
  fault   := none
  diag    := []
  events  := []
  replies := []

def split : State := { fresh with cfg := { config with oddDest := .split } }
def withA : State := { fresh with cfg := { config with profile := profileA } }
def withF : State := { fresh with cfg := { config with profile := profileF } }

/-- SHM_BYTES at its least (R8). -/
def least : State := { fresh with cfg := { config with shmBytes := 0x16 } }

/-- The empty literal for sub-command 0x30. -/
def withEmpty : State := { fresh with cfg := { config with profile := ⟨.normal, [(0x30, [])], none⟩ } }

/-- PA under SPLIT. -/
def splitA : State := { fresh with cfg := { config with profile := profileA, oddDest := .split } }

/-- DESC_BASE such that descriptor 0x3F passes the table's end by one byte, and such that it just fits (V14, V15). -/
def farDescriptor : State := { fresh with cfg := { config with descBase := 0x221 } }
def lastDescriptor : State := { fresh with cfg := { config with descBase := 0x220 } }

/-- The header and shared memory from an address on. -/
def holding (a : Nat) (bytes : List Byte) : State := { fresh with shm := Memory.writeBytes [] a bytes }

/-- The 128 source bytes of vector S-1 but for the unwritten ones. -/
def source (written : Nat → Bool) : State :=
  { fresh with shm := ((List.range 128).filter written).map fun j => (0x200 + j, BitVec.ofNat 8 j) }

/-- A fresh state with one event to come. -/
def pending (e : Event) : State := { fresh with events := [e] }

def sourceAll : State := source fun _ => true

/-- What a next state shows. -/
def seen {α : Type} (o : Host.Outcome State Fault Refusal) (f : State → α) : Option α :=
  match o with
  | .next t => some (f t)
  | .fault _ => none
  | .refused _ => none

/-- The next state, or the state before. -/
def nextOr (s : State) (o : Host.Outcome State Fault Refusal) : State :=
  match o with
  | .next t => t
  | .fault _ => s
  | .refused _ => s

/-- Bytes of shared memory. -/
def bytes (a n : Nat) (s : State) : List (Option Byte) := (List.range n).map fun j => Memory.read s.shm (a + j)

def refusedAs (o : Host.Outcome State Fault Refusal) : Option Refusal :=
  match o with
  | .next _ => none
  | .fault _ => none
  | .refused r => some r

/-! ## Well-formedness: ill-formed terms are refused -/

theorem test_wf_loadset_opcode : Instr.wf (.unrecognised 0x0200 0 0) = false := by decide +kernel
theorem test_wf_rdsw_opcode : Instr.wf (.unrecognised 0x03FF 0 0) = false := by decide +kernel
theorem test_wf_prot_opcode : Instr.wf (.unrecognised 0x0400 0 0) = false := by decide +kernel
theorem test_wf_saveset_opcode : Instr.wf (.unrecognised 0x42A5 0 0) = false := by decide +kernel
theorem test_wf_factdef_opcode : Instr.wf (.unrecognised 0x4300 0 0) = false := by decide +kernel
theorem test_wf_other_opcodes :
    (([0x0000, 0x0100, 0x0500, 0x4100, 0x4400, 0xFF12] : List Word).all fun op => Instr.wf (.unrecognised op 0 0)) = true := by
  decide +kernel
theorem test_wf_config : config.wf = true ∧ Config.launch.wf = true := by decide +kernel
theorem test_wf_config_odd_size : Config.wf { config with shmBytes := 0x17 } = false := by decide +kernel
theorem test_wf_config_short : Config.wf { config with shmBytes := 0x14 } = false := by decide +kernel
theorem test_wf_config_least : Config.wf { config with shmBytes := 0x16 } = true := by decide +kernel
theorem test_wf_config_repeated_key :
    Config.wf { config with profile := ⟨.normal, [(0x30, [1]), (0x30, [2])], none⟩ } = false := by decide +kernel

/-! ## Decoding: header words written out from spec/30_encoding.md R82, R83, R85; bus events of R81 in the bytes of log entry 7 -/

/-- op 0000_0010, qual 1111_1111; dest 0x0100. -/
theorem test_decode_loadset :
    decodeHeader 0b0000001011111111 0b0000000100000000 0 = .loadset 0xFF 0x0100 0 := by decide +kernel
/-- op 0000_0011; dest 0x0040. -/
theorem test_decode_rdsw : decodeHeader 0b0000001100000000 0b0000000001000000 0 = .rdsw 0x00 0x0040 0 := by decide +kernel
/-- op 0000_0100; dest 0x0300; sub 0000_0101. -/
theorem test_decode_prot :
    decodeHeader 0b0000010000000000 0b0000001100000000 0b0000000000000101 = .prot 0x00 0x0300 0x0005 := by decide +kernel
/-- op 0100_0010, qual 1010_0101; dest 0x0200. -/
theorem test_decode_saveset :
    decodeHeader 0b0100001010100101 0b0000001000000000 0 = .saveset 0xA5 0x0200 0 := by decide +kernel
/-- op 0100_0011. -/
theorem test_decode_factdef : decodeHeader 0b0100001100000000 0 0 = .factdef 0x00 0 0 := by decide +kernel
/-- op 0100_0100 is none of the five; U4. -/
theorem test_decode_unrecognised : decodeHeader 0b0100010000000000 0 0 = .unrecognised 0x4400 0 0 := by decide +kernel
theorem test_decode_hsw0 : decodeBytes .bus [0, 0, 0xAB, 0xCD, 0x0F, 0x0F] = .ok (.hsw0 0xABCD 0x0F0F, []) := by
  decide +kernel
theorem test_decode_hsw1 : decodeBytes .bus [0, 1, 0xFF, 0xFF, 0x00, 0xFF] = .ok (.hsw1 0xFFFF 0x00FF, []) := by
  decide +kernel
theorem test_decode_hsw2 : decodeBytes .bus [0, 2, 0x12, 0x34, 0x00, 0xFF] = .ok (.hsw2 0x1234 0x00FF, []) := by
  decide +kernel
theorem test_decode_hsw3 : decodeBytes .bus [0, 3, 0x00, 0x01, 0x00, 0x01] = .ok (.hsw3 0x0001 0x0001, []) := by
  decide +kernel
theorem test_decode_statrd : decodeBytes .bus [0, 4, 0, 0, 0, 0] = .ok (.statrd, []) := by decide +kernel
theorem test_decode_unknown_port : decodeBytes .bus [0, 5, 0, 0, 0, 0] = .error (.noSuchPort 5) := by decide +kernel
theorem test_decode_truncated : decodeBytes .cmd [2, 0, 1, 0, 0] = .error .truncated := by decide +kernel
theorem test_decode_status_write : decodeBusWrite 4 0 0 = .error .statusWrite := by decide +kernel
theorem test_decode_cell_read : decodeBusRead 3 = .error (.handshakeRead 3) := by decide +kernel
theorem test_encode_prot : encode (.prot 0x12 0x0300 0xFF05) = [0x04, 0x12, 0x03, 0x00, 0xFF, 0x05] := by decide +kernel
theorem test_encode_hsw2 : encode (.hsw2 0x1234 0x00FF) = [0x00, 0x02, 0x12, 0x34, 0x00, 0xFF] := by decide +kernel

/-! ## Reset, and an instruction as the first after it -/

theorem test_reset_memory_wf : Memory.wf State.reset.shm = true := by decide +kernel
theorem test_reset_cells : State.reset.hs = #v[0, 0, 0, 0] ∧ State.reset.fault = none ∧ State.reset.diag = [] := by decide +kernel
theorem test_reset_no_event : refusedAs (step State.reset) = some .noEvent := by decide +kernel
theorem test_reset_runs_loadset :
    seen (step (State.reset.withFetchWord 16 0x01000200)) (fun t => (t.fault, bytes 0xFF 3 t, t.hs[3])) =
      some (none, [none, some 0, some 0], 0) := by decide +kernel
theorem test_reset_runs_unrecognised :
    seen (step (State.reset.withFetchWord 16 0x0500)) (·.diag) = some [⟨0x0500, 0, 0⟩] := by decide +kernel
theorem test_reset_runs_hsw2 :
    seen (step (State.reset.withFetchWord 8 0x00FF12340002)) (·.hs) = some #v[0, 0, 0x34, 0] := by decide +kernel
theorem test_reset_runs_statrd :
    seen (step (State.reset.withFetchWord 8 4)) (·.replies) = some [.status 0] := by decide +kernel

/-! ## Decryption (spec/95_test_vectors.md §2.2) -/

theorem test_decrypt_lane_swap : decrypt keys [0x10, 0x10] = [0x11, 0x10] := by decide +kernel   -- X1, X2
theorem test_decrypt_wraps : decryptFrom keys 0xFF [0x05] = [0x03] := by decide +kernel   -- X3
theorem test_decrypt_alt : decrypt altKeys [0x10, 0x10] = [0x91, 0x90] := by decide +kernel   -- X1, X2

/-! ## Handshake gate (§2.3) -/

/-- The header of §2.3, an unrecognised command. -/
def gate (cells : Vector Word 4) : State := { holding 0x10 [5, 0, 0, 0, 0, 0] with hs := cells }

theorem test_hsw3_triggers :
    seen (exec (.hsw3 0x0001 0x0001) (gate #v[0xFFFF, 0xFFFF, 0xFFFF, 0xFFFE])) (fun t => (t.hs, t.diag)) =
      some (#v[0, 0, 0, 0], [⟨0x0500, 0, 0⟩]) := by decide +kernel   -- H3
theorem test_hsw3_incomplete :
    seen (exec (.hsw3 0xFFFE 0xFFFF) (gate #v[0xFFFF, 0xFFFF, 0xFFFF, 0])) (fun t => (t.hs, t.diag)) =
      some (#v[0xFFFF, 0xFFFF, 0xFFFF, 0xFFFE], []) := by decide +kernel   -- H2
theorem test_hsw0_merges :
    seen (exec (.hsw0 0xABCD 0x0F0F) (gate #v[0x1234, 0, 0, 0])) (·.hs) = some #v[0x1B3D, 0, 0, 0] := by
  decide +kernel   -- H8
theorem test_hsw0_second_mask :
    seen (exec (.hsw0 0xFFFF 0xFF00) (gate #v[0x00FF, 0xFFFF, 0xFFFF, 0xFFFF])) (fun t => (t.hs, t.diag)) =
      some (#v[0, 0, 0, 0], [⟨0x0500, 0, 0⟩]) := by decide +kernel   -- H6
theorem test_hsw1_partial_mask :
    seen (exec (.hsw1 0xFFFF 0x00FF) (gate #v[0, 0, 0, 0])) (·.hs) = some #v[0, 0x00FF, 0, 0] := by decide +kernel
theorem test_hsw2_triggers_last :
    seen (exec (.hsw2 0xFFFF 0xFFFF) (gate #v[0xFFFF, 0xFFFF, 0, 0xFFFF])) (fun t => (t.hs, t.diag)) =
      some (#v[0, 0, 0, 0], [⟨0x0500, 0, 0⟩]) := by decide +kernel   -- H7
theorem test_trigger_unwritten_header :
    seen (exec (.hsw3 0xFFFF 0xFFFF) { fresh with hs := #v[0xFFFF, 0xFFFF, 0xFFFF, 0] }) (fun t => (t.hs, t.fault)) =
      some (#v[0, 0, 0, 0], some (.uninitRead 0x10)) := by decide +kernel   -- H10
theorem test_trigger_half_header :
    seen (dispatch (holding 0x10 [0x43, 0, 0, 0])) (·.fault) = some (some (.uninitRead 0x14)) := by decide +kernel   -- R1
theorem test_statrd : seen (exec .statrd fresh) (fun t => (t.replies, t.hs)) = some ([.status 0x1234], #v[0, 0, 0, 0]) := by
  decide +kernel   -- H12
theorem test_device_reset :
    seen (step { gate #v[0xFFFF, 0xFFFF, 0xFFFF, 0] with events := [.deviceReset] }) (fun t => (t.hs, bytes 0x10 2 t)) =
      some (#v[0, 0, 0, 0], [some 5, some 0]) := by decide +kernel   -- H11

/-! ## Commands (§2.4, §2.6) -/

theorem test_loadset_copies :
    seen (exec (.loadset 0 0x0100 0) fresh) (fun t => (bytes 0xFF 7 t, bytes 0x17E 3 t)) =
      some ([none, some 0x00, some 0xFF, some 0x01, some 0xFE, some 0x02, some 0xFD], [some 0x3F, some 0xC0, none]) := by
  decide +kernel   -- L1
theorem test_loadset_range : seen (exec (.loadset 0 0x0F82 0) fresh) (fun t => (t.fault, t.shm)) =
    some (some (.shmRange 0x1000), []) := by decide +kernel   -- L3
theorem test_saveset_reassembles :
    seen (exec (.saveset 0 0x0200 0) sourceAll) (fun t => (t.store[0], t.store[1], t.store[63])) =
      some (0x0001, 0x0203, 0x7E7F) := by decide +kernel   -- S-1
theorem test_saveset_lowest_unwritten :
    seen (exec (.saveset 0 0x0200 0) (source fun j => j != 0x50 && j != 0x7F)) (fun t => (t.fault, t.store[0])) =
      some (some (.uninitRead 0x250), 0x00FF) := by decide +kernel   -- S-3
theorem test_factdef_writes :
    seen (exec (.factdef 0 0x0001 0xFFFF) withF) (fun t => (t.store[0], t.store[63], t.fault)) =
      some (0xA000, 0xA03F, none) := by decide +kernel   -- F-2
theorem test_factdef_none : seen (exec (.factdef 0 0 0) fresh) (fun t => (t.store[1], t.diag)) = some (0x01FE, []) := by
  decide +kernel   -- F-3
theorem test_rdsw_writes :
    seen (exec (.rdsw 0 0x0FFE 0) fresh) (fun t => (bytes 0xFFD 3 t, t.fault)) =
      some ([none, some 0x5A, some 0xA5], none) := by decide +kernel   -- W2
theorem test_rdsw_odd : seen (exec (.rdsw 0 0x0FFF 0) fresh) (·.fault) = some (some (.oddDest 0x0FFF)) := by
  decide +kernel   -- W4
theorem test_prot_descriptor :
    seen (exec (.prot 0 0x0300 0xFF45) fresh) (bytes 0x2FF 5) =
      some [none, some 0xAA, some 0xBB, some 0xCC, none] := by decide +kernel   -- V1, V2, V12
theorem test_prot_override_key :
    (seen (exec (.prot 0 0x0400 0x0030) withA) (bytes 0x400 6), seen (exec (.prot 0 0x0400 0x0070) withA) (bytes 0x400 3)) =
      (some [some 1, some 2, some 3, some 4, some 5, none], some [some 0xDE, some 0xAD, none]) := by
  decide +kernel   -- V8, V9
theorem test_unrecognised_odd :
    seen (exec (.unrecognised 0x0100 0x0001 0) fresh) (fun t => (t.diag, t.fault, t.shm)) =
      some ([⟨0x0100, 0x0001, 0⟩], none, []) := by decide +kernel   -- U5

/-! ## Host accesses -/

theorem test_host_write16 :
    seen (step { fresh with events := [.hostWrite16 0x0FFE 0x1234] }) (bytes 0xFFD 3) = some [none, some 0x12, some 0x34] := by
  decide +kernel
theorem test_host_read_unwritten :
    seen (step { holding 0x302 [0xCC] with events := [.hostRead16 0x302] }) (·.replies) =
      some [.bytes [some 0xCC, none]] := by decide +kernel   -- P2

/-! ## Witnesses: for each statement with hypotheses, a state and operands that meet them, clause by clause -/

theorem witness_round_trip : Instr.wf (.unrecognised 0x4400 0 0) = true ∧ Instr.wf (.loadset 0xFF 0 0) = true := by decide +kernel

theorem witness_opcode_map :
    (0x44#8 ∉ ([0x02#8, 0x03#8, 0x04#8, 0x42#8, 0x43#8] : List Byte)) ∧
      (0x00#8 ∉ ([0x02#8, 0x03#8, 0x04#8, 0x42#8, 0x43#8] : List Byte)) := by decide +kernel

theorem witness_qualifier :
    0x05#8 ∉ ([0x02#8, 0x03#8, 0x04#8, 0x42#8, 0x43#8] : List Byte) ∧
      seen (exec (decodeHeader (0x05#8 ++ 0x00#8) 0 0) fresh) (·.fault) = some none := by decide +kernel

theorem witness_step_bus :
    (pending (.busWrite 3 0xFFFF 0xFFFF)).fault = none ∧
      (pending (.busWrite 3 0xFFFF 0xFFFF)).events = .busWrite 3 0xFFFF 0xFFFF :: [] ∧
      decodeBusWrite 3 0xFFFF 0xFFFF = .ok (.hsw3 0xFFFF 0xFFFF) ∧
      (pending (.busRead 4)).events = .busRead 4 :: [] ∧ decodeBusRead 4 = .ok .statrd := by decide +kernel

theorem witness_dispatch_written :
    (gate #v[0, 0, 0, 0]).fault = none ∧ 0x16 ≤ (gate #v[0, 0, 0, 0]).cfg.shmBytes ∧
      bytes 0x10 6 (gate #v[0, 0, 0, 0]) = [some 5, some 0, some 0, some 0, some 0, some 0] := by
  decide +kernel
theorem witness_dispatch_first_unwritten :
    fresh.fault = none ∧ 0x16 ≤ fresh.cfg.shmBytes ∧ Memory.read fresh.shm (0x10 + 0) = none := by decide +kernel
theorem witness_dispatch_last_unwritten :
    (holding 0x10 [2, 0, 1, 0, 0]).fault = none ∧ Memory.read (holding 0x10 [2, 0, 1, 0, 0]).shm (0x10 + 5) = none ∧
      ∀ j < 5, (Memory.read (holding 0x10 [2, 0, 1, 0, 0]).shm (0x10 + j)).isSome = true := by decide +kernel

theorem witness_fetch_word :
    State.reset.fault = none ∧ 0x16 ≤ State.reset.cfg.shmBytes ∧
      decodeTableWord 16 0x4200 = some (.saveset 0 0 0) ∧ decodeTableWord 8 4 = some .statrd := by decide +kernel

theorem witness_cmd_events :
    least.fault = none ∧ 0x16 ≤ least.cfg.shmBytes ∧ least.hs = Vector.replicate 4 0x0000#16 := by decide +kernel

theorem witness_events_taken :
    seen (step { fresh with events := [.busRead 4, .deviceReset] }) (·.events) = some [.deviceReset] := by decide +kernel

theorem witness_outside_interface :
    fresh.fault = none ∧ refusedAs (step { fresh with events := [.busRead 0] }) = some (.rejected (.handshakeRead 0)) ∧
      refusedAs (step { fresh with events := [.busRead 3] }) = some (.rejected (.handshakeRead 3)) ∧
      refusedAs (step { fresh with events := [.busWrite 4 1 1] }) = some (.rejected .statusWrite) ∧
      refusedAs (step { fresh with events := [.busRead 5] }) = some (.rejected (.noSuchPort 5)) ∧
      refusedAs (step { fresh with events := [.busWrite 5 1 1] }) = some (.rejected (.noSuchPort 5)) := by decide +kernel

theorem witness_status :
    fresh.fault = none ∧ ({ fresh with fault := some (.oddDest 1) } : State).fault = some (.oddDest 1) := by decide +kernel

theorem witness_merge_other_cell : fresh.fault = none ∧ ∃ k : Fin 4, k ≠ 0 ∧ fresh.hs[k] ≠ 0xFFFF#16 := by decide +kernel
/-- H9: a mask of 0 on the last open cell. -/
theorem witness_merge_own_cell :
    (gate #v[0xFFFF, 0xFFFF, 0xFFFF, 0]).fault = none ∧
      ∃ i < 16, (if (0x0000#16).getLsbD i then (0xFFFF#16).getLsbD i
        else (gate #v[0xFFFF, 0xFFFF, 0xFFFF, 0]).hs[(3 : Fin 4)].getLsbD i) = false := by decide +kernel

/-- H3: one masked bit completes the pattern. -/
theorem witness_completing :
    (gate #v[0xFFFF, 0xFFFF, 0xFFFF, 0xFFFE]).fault = none ∧
      (∀ k : Fin 4, k ≠ 3 → (gate #v[0xFFFF, 0xFFFF, 0xFFFF, 0xFFFE]).hs[k] = 0xFFFF#16) ∧
      ∀ i < 16, (if (0x0001#16).getLsbD i then (0x0001#16).getLsbD i
        else (gate #v[0xFFFF, 0xFFFF, 0xFFFF, 0xFFFE]).hs[(3 : Fin 4)].getLsbD i) = true := by decide +kernel

/-- H7: an order that is not the cells' own. -/
theorem witness_any_order :
    fresh.fault = none ∧ fresh.hs = Vector.replicate 4 0x0000#16 ∧ ([3, 1, 0, 2] : List (Fin 4)).Perm [0, 1, 2, 3] := by
  decide +kernel

theorem witness_partial_persists :
    (seen (step { gate #v[0xFFFF, 0, 0, 0] with events := [.busWrite 2 0xFFFF 0xFFFF] }) (·.hs) =
        some #v[0xFFFF, 0, 0xFFFF, 0] ∧ (gate #v[0xFFFF, 0, 0, 0]).hs[(1 : Fin 4)] ≠ 0xFFFF#16) ∧
      Event.busWrite 2 0xFFFF 0xFFFF ≠ .deviceReset ∧ (∀ v m, Event.busWrite 2 0xFFFF 0xFFFF ≠ .busWrite 0 v m) ∧
      ∀ v m, Event.busWrite 2 0xFFFF 0xFFFF ≠ .busWrite 1 v m :=
  ⟨by decide +kernel, by simp, by simp, by simp⟩

theorem witness_second_trigger :
    (gate #v[0, 0, 0, 0]).fault = none ∧ 0x16 ≤ (gate #v[0, 0, 0, 0]).cfg.shmBytes ∧
      (gate #v[0, 0, 0, 0]).hs = Vector.replicate 4 0x0000#16 ∧
      bytes 0x10 6 (gate #v[0, 0, 0, 0]) = [some 5, some 0, some 0, some 0, some 0, some 0] ∧
      0x05#8 ∉ ([0x02#8, 0x03#8, 0x04#8, 0x42#8, 0x43#8] : List Byte) := by decide +kernel

theorem witness_cells_rest :
    (∃ k : Fin 4, (gate #v[0xFFFF, 0xFFFF, 0xFFFF, 0]).hs[k] ≠ 0xFFFF#16) ∧
      seen (step { gate #v[0xFFFF, 0xFFFF, 0xFFFF, 0] with events := [.busWrite 3 0xFFFF 0xFFFF] }) (·.hs) =
        some #v[0, 0, 0, 0] := by decide +kernel

/-- LOADSET and SAVESET: odd under FAULT (L6); one word too far (L3); the last place (L2); odd under SPLIT (L7). -/
theorem witness_word_block :
    (fresh.fault = none ∧ split.fault = none) ∧ ((0x0101#16).toNat % 2 = 1 ∧ fresh.cfg.oddDest = .fault) ∧
      (¬((0x0F82#16).toNat % 2 = 1 ∧ fresh.cfg.oddDest = .fault) ∧ fresh.cfg.shmBytes < 2 * wordIndex 0x0F82#16 + 128) ∧
      (¬((0x0F80#16).toNat % 2 = 1 ∧ fresh.cfg.oddDest = .fault) ∧ 2 * wordIndex 0x0F80#16 + 128 ≤ fresh.cfg.shmBytes) ∧
      ¬((0x0101#16).toNat % 2 = 1 ∧ split.cfg.oddDest = .fault) ∧ 2 * wordIndex 0x0101#16 + 128 ≤ split.cfg.shmBytes := by
  decide +kernel

/-- SAVESET: the first and the last byte unwritten, and none (S-1, S-2). -/
theorem witness_saveset_source :
    (sourceAll.fault = none ∧ ¬((0x0200#16).toNat % 2 = 1 ∧ sourceAll.cfg.oddDest = .fault) ∧
        2 * wordIndex 0x0200#16 + 128 ≤ sourceAll.cfg.shmBytes) ∧
      Memory.read (source fun j => j != 0).shm (2 * wordIndex 0x0200#16 + 0) = none ∧
      (Memory.read (source fun j => j != 127).shm (2 * wordIndex 0x0200#16 + 127) = none ∧
        ∀ i < 127, (Memory.read (source fun j => j != 127).shm (2 * wordIndex 0x0200#16 + i)).isSome = true) ∧
      ∀ j < 128, (Memory.read sourceAll.shm (2 * wordIndex 0x0200#16 + j)).isSome = true := by decide +kernel

theorem witness_factdef :
    withF.fault = none ∧ withF.cfg.profile.factoryDefaults = some defaults ∧ fresh.cfg.profile.factoryDefaults = none := by
  decide +kernel

/-- RDSW: W4, W3, W2. -/
theorem witness_rdsw :
    fresh.fault = none ∧ ((0x0FFF#16).toNat % 2 = 1 ∧ fresh.cfg.oddDest = .fault) ∧
      (¬((0x1000#16).toNat % 2 = 1 ∧ fresh.cfg.oddDest = .fault) ∧ fresh.cfg.shmBytes < 2 * wordIndex 0x1000#16 + 2) ∧
      (¬((0x0FFE#16).toNat % 2 = 1 ∧ fresh.cfg.oddDest = .fault) ∧ 2 * wordIndex 0x0FFE#16 + 2 ≤ fresh.cfg.shmBytes) := by
  decide +kernel

theorem witness_unrecognised :
    fresh.fault = none ∧ (0x4400#16).extractLsb' 8 8 ∉ ([0x02#8, 0x03#8, 0x04#8, 0x42#8, 0x43#8] : List Byte) ∧
      (0x00FF#16).extractLsb' 8 8 ∉ ([0x02#8, 0x03#8, 0x04#8, 0x42#8, 0x43#8] : List Byte) := by decide +kernel

/-- An empty literal; V11; the last place a literal of five bytes fits under SPLIT. -/
theorem witness_override :
    (withEmpty.fault = none ∧ ¬((0x0FFE#16).toNat % 2 = 1 ∧ withEmpty.cfg.oddDest = .fault) ∧
        overrideFor withEmpty.cfg.profile ((0x0030#16).extractLsb' 0 8) = some []) ∧
      (withA.fault = none ∧ ¬((0x0FFE#16).toNat % 2 = 1 ∧ withA.cfg.oddDest = .fault) ∧
        overrideFor withA.cfg.profile ((0x0030#16).extractLsb' 0 8) = some [1, 2, 3, 4, 5] ∧
        withA.cfg.shmBytes < byteDest 0x0FFE#16 + ([1, 2, 3, 4, 5] : List Byte).length) ∧
      splitA.fault = none ∧ ¬((0x0FFB#16).toNat % 2 = 1 ∧ splitA.cfg.oddDest = .fault) ∧
        overrideFor splitA.cfg.profile ((0x0030#16).extractLsb' 0 8) = some [1, 2, 3, 4, 5] ∧
        byteDest 0x0FFB#16 + ([1, 2, 3, 4, 5] : List Byte).length ≤ splitA.cfg.shmBytes := by
  decide +kernel

/-- The hypotheses that every clause of the descriptor statement shares. -/
theorem witness_descriptor :
    fresh.fault = none ∧ fresh.dec.length = fresh.cfg.romSize ∧ ¬((0x0300#16).toNat % 2 = 1 ∧ fresh.cfg.oddDest = .fault) ∧
      overrideFor fresh.cfg.profile ((0x0005#16).extractLsb' 0 8) = none ∧
      overrideFor fresh.cfg.profile ((0x003F#16).extractLsb' 0 8) = none := by
  decide +kernel
/-- Its clauses: the descriptor one byte too far, and just inside with length 0 (V14, V15); length 0 (V4); the payload too far
(V5); the destination one byte too far, and just inside. -/
theorem witness_descriptor_clauses :
    farDescriptor.cfg.romSize < farDescriptor.cfg.descBase + (0x003F#16).toNat % 64 * 8 + 8 ∧
      (lastDescriptor.cfg.descBase + (0x003F#16).toNat % 64 * 8 + 8 ≤ lastDescriptor.cfg.romSize ∧
        (lastDescriptor.dec.getD (0x418 + 4) 0x00#8).toNat + 256 * (lastDescriptor.dec.getD (0x418 + 5) 0x00#8).toNat = 0) ∧
      (fresh.dec.getD (0x30 + 4) 0x00#8).toNat + 256 * (fresh.dec.getD (0x30 + 5) 0x00#8).toNat = 0 ∧
      ((fresh.dec.getD (0x38 + 4) 0x00#8).toNat + 256 * (fresh.dec.getD (0x38 + 5) 0x00#8).toNat = 2 ∧
        fresh.cfg.romSize < (fresh.dec.getD (0x38 + 2) 0x00#8).toNat + 256 * (fresh.dec.getD (0x38 + 3) 0x00#8).toNat + 2) ∧
      ((fresh.dec.getD (0x28 + 4) 0x00#8).toNat + 256 * (fresh.dec.getD (0x28 + 5) 0x00#8).toNat = 3 ∧
        (fresh.dec.getD (0x28 + 2) 0x00#8).toNat + 256 * (fresh.dec.getD (0x28 + 3) 0x00#8).toNat = 0x400 ∧
        0x400 + 3 ≤ fresh.cfg.romSize) ∧
      fresh.cfg.shmBytes < byteDest 0x0FFE#16 + 3 ∧ byteDest 0x0FFC#16 + 3 ≤ fresh.cfg.shmBytes := by decide +kernel

theorem witness_override_ignores_table :
    overrideFor withA.cfg.profile ((0x0030#16).extractLsb' 0 8) = some [1, 2, 3, 4, 5] ∧
      seen (exec (.prot 0 0x0400 0x0030) withA) (·.fault) = some none := by decide +kernel

/-- V2. -/
theorem witness_descriptor_index :
    (0x0005#16).toNat % 64 = (0x00C5#16).toNat % 64 ∧ overrideFor fresh.cfg.profile ((0x0005#16).extractLsb' 0 8) = none ∧
      overrideFor fresh.cfg.profile ((0x00C5#16).extractLsb' 0 8) = none := by decide +kernel

theorem witness_odd_destination :
    (fresh.fault = none ∧ fresh.cfg.oddDest = .fault) ∧ (split.fault = none ∧ split.cfg.oddDest = .split) ∧
      (0x0001#16).toNat % 2 = 1 ∧ (0xFFFF#16).toNat % 2 = 1 := by decide +kernel

theorem witness_saveset_then_loadset :
    seen (exec (.saveset 0 0x0200 0) sourceAll) (·.fault) = some none ∧
      (nextOr fresh (exec (.saveset 0 0x0200 0) sourceAll)).fault = none := by decide +kernel
theorem witness_loadset_then_saveset : seen (exec (.loadset 0 0x0F80 0) fresh) (·.fault) = some none := by decide +kernel

theorem witness_prior_memory :
    ((holding 0x100 [1, 2, 3]).cfg = fresh.cfg ∧ (holding 0x100 [1, 2, 3]).dec = fresh.dec ∧
      (holding 0x100 [1, 2, 3]).store = fresh.store ∧ (holding 0x100 [1, 2, 3]).sw = fresh.sw) ∧
      (seen (exec (.rdsw 0 0x0100 0) fresh) (·.fault)).isSome ∧
      (seen (exec (.rdsw 0 0x0100 0) (holding 0x100 [1, 2, 3])) (·.fault)).isSome :=
  ⟨⟨rfl, rfl, rfl, rfl⟩, by decide +kernel⟩

theorem witness_fault_recorded :
    seen (step { fresh with hs := #v[0xFFFF, 0xFFFF, 0xFFFF, 0], events := [.busWrite 3 0xFFFF 0xFFFF] }) (·.fault) =
      some (some (.uninitRead 0x10)) ∧ ({ fresh with fault := some (.shmRange 0x1000) } : State).fault ≠ none := by
  decide +kernel

/-- The last byte and the first beyond; the last word and the first beyond; an odd word address. -/
theorem witness_host_accesses :
    ((pending (.hostWrite8 0xFFF 1)).fault = none ∧ (pending (.hostWrite8 0xFFF 1)).events = .hostWrite8 0xFFF 1 :: []) ∧
      (pending (.hostRead16 0xFFF)).events = .hostRead16 0xFFF :: [] ∧ 0xFFF < config.shmBytes ∧
      config.shmBytes ≤ 0x1000 ∧ 0xFFE % 2 = 0 ∧ 0xFFE + 1 < config.shmBytes ∧
      0x1000 % 2 = 0 ∧ config.shmBytes ≤ 0x1000 + 1 ∧ 0xFFF % 2 = 1 := by decide +kernel

/-- MemRead's clauses: beyond, across the end, both bytes below it unwritten, half written and written. -/
theorem witness_mem_read :
    config.shmBytes ≤ 0x1000 ∧ config.shmBytes = 0xFFF + 1 ∧ 0xFFE + 1 < config.shmBytes ∧
      Memory.read fresh.shm 0xFFE = none ∧ bytes 0xFFE 2 (holding 0xFFE [7]) = [some 7, none] ∧
      bytes 0xFFE 2 (holding 0xFFE [7, 8]) = [some 7, some 8] := by decide +kernel

theorem witness_word_base :
    (0x0001#16).toNat % 2 = 1 ∧ config.oddDest = .fault ∧ split.cfg.oddDest = .split ∧ (0x0000#16).toNat % 2 = 0 ∧
      0xFFE + 2 ≤ config.shmBytes ∧ config.shmBytes < 0xFFF + 2 := by decide +kernel

theorem witness_dec_read :
    fresh.dec.length = fresh.cfg.romSize ∧ fresh.dec[0x400]? = some 0xAA ∧ fresh.dec[0x41F]? = some 0 ∧
      fresh.cfg.romSize ≤ 0x420 := by decide +kernel

/-- A store write, a shared-memory write, a record, a switch change and a reply. -/
theorem witness_writers :
    (seen (step { holding 0x10 [0x43, 0, 0, 0, 0, 0] with
        cfg := withF.cfg, hs := #v[0xFFFF, 0xFFFF, 0xFFFF, 0], events := [.busWrite 3 0xFFFF 0xFFFF] }) (·.store[0]) =
      some 0xA000) ∧
      seen (step { gate #v[0xFFFF, 0xFFFF, 0xFFFF, 0] with events := [.busWrite 3 0xFFFF 0xFFFF] }) (·.diag.length) =
        some 1 ∧
      seen (step { holding 0x10 [3, 0, 0, 0x40, 0, 0] with
        hs := #v[0xFFFF, 0xFFFF, 0xFFFF, 0], events := [.busWrite 3 0xFFFF 0xFFFF] }) (bytes 0x40 2) =
        some [some 0x5A, some 0xA5] ∧
      seen (step (pending (.hostWrite8 2 9))) (·.shm) = some [(2, 9)] ∧
      seen (step (pending (.setSwitch 7))) (·.sw) = some 7 ∧
      seen (step (pending (.busRead 4))) (·.replies) = some [.status 0x1234] := by decide +kernel

theorem witness_decrypt : ([0x10, 0x10] : List Byte)[1]? = some 0x10 ∧ 1 < ([0x10, 0x10] : List Byte).length := by decide +kernel

theorem witness_init_selectors :
    config.profile.tableSel = .normal ∧
      ({ config with profile := ⟨.alt, [], none⟩ } : Config).profile.tableSel = .alt := by decide +kernel

theorem witness_device_reset :
    (pending .deviceReset).events = .deviceReset :: [] ∧ (pending .deviceReset).fault = none ∧
      ({ pending .deviceReset with fault := some (.romRange 0x420) } : State).fault = some (.romRange 0x420) := by
  decide +kernel

theorem witness_init_inv : config.wf = true ∧ table.length = config.romSize := by decide +kernel

theorem witness_step_inv : fresh.Inv ∧ seen (step (pending (.hostWrite8 0xFFF 1))) (·.shm) = some [(0xFFF, 1)] := by
  decide +kernel

end Sys2Proof.Tests
end

section
/-! PROOFS. The invariant of the block: initialisation meets it and every step keeps it. -/

namespace Sys2Proof.Machine

/-! ## What the shared operations keep -/

/-- A copy of bytes that ends at or below a bound, or copies nothing, keeps every written address below that bound. -/
theorem Memory.writeBytes_below {m : Memory} {n a : Nat} {bs : List Byte} (hm : ∀ c ∈ m, c.1 < n)
    (hb : bs = [] ∨ a + bs.length ≤ n) : ∀ c ∈ Memory.writeBytes m a bs, c.1 < n := by
  intro c hc
  rcases hb with rfl | hle
  · exact hm c (by simpa using hc)
  · rcases Memory.mem_writeBytes hc with hold | hnew
    · exact hm c hold
    · exact Nat.lt_of_lt_of_le hnew hle

theorem memWriteBytes_inv {s : State} {a : Nat} {bs : List Byte} (h : s.Inv)
    (hb : bs = [] ∨ a + bs.length ≤ s.cfg.shmBytes) : (memWriteBytes s a bs).Inv := by
  obtain ⟨hcfg, hwf, hlt, hdec, hhs⟩ := h
  exact ⟨hcfg, Memory.wf_writeBytes a bs hwf, Memory.writeBytes_below hlt hb, hdec, hhs⟩

theorem memWrite8_eq_memWriteBytes (s : State) (a : Nat) (v : Byte) : memWrite8 s a v = memWriteBytes s a [v] := by
  simp [memWrite8, memWriteBytes]

/-- Cells that do not complete the pattern may replace the cells of a good state. -/
theorem State.Inv.withCells {s : State} {hs : Vector Word 4} (h : s.Inv) (hhs : allSentinel hs = false) :
    ({ s with hs := hs } : State).Inv := by
  obtain ⟨hcfg, hwf, hlt, hdec, -⟩ := h
  exact ⟨hcfg, hwf, hlt, hdec, hhs⟩

theorem clearCells_inv {s : State} (h : s.Inv) : (clearCells s).Inv := h.withCells allSentinel_clear

/-! ## Commands, events and steps

Where a case writes only fields the invariant does not speak of, the invariant of the next state is that of the state
before it. -/

theorem CommandResult.inv {s t : State} (h : s.Inv) (hr : CommandResult s t) : t.Inv := by
  cases hr with
  | raised f => exact h
  | wroteShm a bs hb => exact memWriteBytes_inv h hb
  | wroteStore v => exact h
  | emitted d => exact h

theorem EventResult.inv {s t : State} {e : Event} (h : s.Inv) (hr : EventResult s e t) : t.Inv := by
  cases hr with
  | merged n v m hopen => exact h.withCells hopen
  | dispatched n v m _ _ hcmd => exact hcmd.inv (clearCells_inv h)
  | statusRead => exact h
  | wrote8 a v hle => exact memWrite8_eq_memWriteBytes s a v ▸ memWriteBytes_inv h (.inr hle)
  | wrote16 a v hle => exact memWriteBytes_inv h (.inr hle)
  | read8 a => exact h
  | read16 a => exact h
  | reset => exact clearCells_inv h
  | switched v => exact h

theorem step_inv {s t : State} (h : s.Inv) (ht : step s = .next t) : t.Inv := by
  obtain ⟨-, e, es, -, hr⟩ := step_result ht
  have hrest : ({ s with events := es } : State).Inv := h
  exact hr.inv hrest

/-! ## Initial states -/

theorem init_inv {c : Config} {raw : List Byte} (st : Vector Word 64) (sw : Word) (hc : c.wf = true)
    (hraw : raw.length = c.romSize) : (State.init c raw st sw).Inv := by
  have hdec : (decrypt (selectTable c) raw).length = c.romSize := by rw [decrypt_length, hraw]
  exact ⟨hc, Memory.wf_nil, by simp, hdec, allSentinel_clear⟩

theorem launch_wf : Config.launch.wf = true := by decide

theorem launchRaw_length : launchRaw.length = Config.launch.romSize := List.length_replicate

theorem reset_inv : State.reset.Inv := init_inv launchStore launchSwitch launch_wf launchRaw_length

end Sys2Proof.Machine

/-- Settles O45: a step is one event, and each thing an event can do (`EventResult`) keeps the invariant. -/
theorem everyStepKeepsTheInvariant : Obligations.EveryStepKeepsTheInvariant :=
  fun _ _ h ht => Sys2Proof.Machine.step_inv h ht

/-- Settles O44: a decrypted image is as long as the raw one, shared memory is empty and the cells are 0x0000. -/
theorem initialStatesMeetTheInvariant : Obligations.InitialStatesMeetTheInvariant :=
  ⟨fun _ _ st sw hc hraw => Sys2Proof.Machine.init_inv st sw hc hraw, Sys2Proof.Machine.reset_inv⟩
end

section
/-! PROOFS. The state: what a step keeps of the cells, the configuration and the decrypted table, and what it takes from a
bus access and from a change of the switch. -/

namespace Sys2Proof.Machine

/-! ## What every command keeps -/

theorem CommandResult.hs_eq {s t : State} (hr : CommandResult s t) : t.hs = s.hs := by
  cases hr <;> rfl

theorem CommandResult.cfg_dec_eq {s t : State} (hr : CommandResult s t) : t.cfg = s.cfg ∧ t.dec = s.dec := by
  cases hr <;> exact ⟨rfl, rfl⟩

/-! ## The cells across one event -/

/-- A cell that is not the sentinel and not written keeps the write from completing the pattern
(spec/41_handshake.md R114). -/
theorem allSentinel_writeCell_of_other {s : State} {n j : Fin 4} (v m : Word) (hjn : j ≠ n) (hj : s.hs[j] ≠ sentinel) :
    allSentinel (writeCell s n v m).hs = false :=
  (allSentinel_eq_false_iff _).2 ⟨j, by rwa [writeCell_other s v m hjn]⟩

/-- A handshake write ends with its merge where another cell stays open, and any other event but the reset leaves all
cells (spec/10_state.md R22). -/
theorem EventResult.cell_eq {s t : State} {e : Event} {k j : Fin 4} (hr : EventResult s e t) (hreset : e ≠ .deviceReset)
    (hk : ∀ v m, e ≠ .busWrite k v m) (hj : s.hs[j] ≠ sentinel) (hjw : ∀ v m, e ≠ .busWrite j v m) :
    t.hs[k] = s.hs[k] := by
  cases hr with
  | merged n v m _ =>
    have hkn : k ≠ n := fun hkn => hk v m (by rw [hkn])
    exact writeCell_other s v m hkn
  | dispatched n v m hall _ _ =>
    have hjn : j ≠ n := fun hjn => hjw v m (by rw [hjn])
    have hopen := allSentinel_writeCell_of_other v m hjn hj
    rw [hall] at hopen
    cases hopen
  | reset => exact absurd rfl hreset
  | statusRead | wrote8 | wrote16 | read8 | read16 | switched => rfl

/-- No event completes the pattern and leaves it standing: the completing write clears the cells before it dispatches, and
the dispatch keeps them cleared (spec/10_state.md R23). -/
theorem EventResult.allSentinel_eq_false {s t : State} {e : Event} (hr : EventResult s e t)
    (hs : allSentinel s.hs = false) : allSentinel t.hs = false := by
  cases hr with
  | merged n v m hopen => exact hopen
  | dispatched n v m _ _ hcmd => rw [hcmd.hs_eq]; exact allSentinel_clear
  | reset => exact allSentinel_clear
  | statusRead | wrote8 | wrote16 | read8 | read16 | switched => exact hs

/-! ## The configuration and the decrypted table across one event -/

theorem EventResult.cfg_dec_eq {s t : State} {e : Event} (hr : EventResult s e t) : t.cfg = s.cfg ∧ t.dec = s.dec := by
  cases hr with
  | dispatched n v m _ _ hcmd => exact hcmd.cfg_dec_eq
  | merged | statusRead | wrote8 | wrote16 | read8 | read16 | reset | switched => exact ⟨rfl, rfl⟩

/-! ## The step -/

theorem step_cell_eq {s t : State} {e : Event} {k j : Fin 4} (ht : step s = .next t) (he : s.events.head? = some e)
    (hreset : e ≠ .deviceReset) (hk : ∀ v m, e ≠ .busWrite k v m) (hj : s.hs[j] ≠ sentinel)
    (hjw : ∀ v m, e ≠ .busWrite j v m) : t.hs[k] = s.hs[k] := by
  obtain ⟨-, e', es, hes, hr⟩ := step_result ht
  obtain rfl : e' = e := by simpa [hes] using he
  exact hr.cell_eq hreset hk hj hjw

theorem step_open_cell {s t : State} (ht : step s = .next t) (hs : ∃ k : Fin 4, s.hs[k] ≠ sentinel) :
    ∃ k : Fin 4, t.hs[k] ≠ sentinel := by
  obtain ⟨-, e, es, -, hr⟩ := step_result ht
  have hopen : allSentinel s.hs = false := (allSentinel_eq_false_iff _).2 hs
  exact (allSentinel_eq_false_iff _).1 (hr.allSentinel_eq_false hopen)

theorem init_cell (c : Config) (raw : List Byte) (st : Vector Word 64) (sw : Word) (k : Fin 4) :
    (State.init c raw st sw).hs[k] = 0x0000#16 := by
  simp

theorem step_cfg_dec_eq {s t : State} (ht : step s = .next t) : t.cfg = s.cfg ∧ t.dec = s.dec := by
  obtain ⟨-, e, es, -, hr⟩ := step_result ht
  exact hr.cfg_dec_eq

theorem runEvent_busWrite {p : Nat} {v m : Word} {i : Instr} (s : State) (hd : decodeBusWrite p v m = .ok i) :
    runEvent (.busWrite p v m) s = exec i s := by
  rw [runEvent, hd, busAccess]

theorem runEvent_busRead {p : Nat} {i : Instr} (s : State) (hd : decodeBusRead p = .ok i) :
    runEvent (.busRead p) s = exec i s := by
  rw [runEvent, hd, busAccess]

theorem runEvent_setSwitch (v : Word) (s : State) : runEvent (.setSwitch v) s = .next { s with sw := v } := rfl

end Sys2Proof.Machine

/-- Settles O16: of all an event can do (`EventResult`), only a write to the cell, a completing write and the reset touch a
cell, and the open cell `j` rules out the completing write. -/
theorem partialHandshakePersists : Obligations.PartialHandshakePersists :=
  fun _ _ _ _ _ ht he hreset hk hj hjw => Sys2Proof.Machine.step_cell_eq ht he hreset hk hj hjw

/-- Settles O17: a merge that does not dispatch has not completed the pattern, and one that does leaves cleared cells. -/
theorem cellsNeverRestAtTheFullPattern : Obligations.CellsNeverRestAtTheFullPattern :=
  ⟨fun _ _ ht hs => Sys2Proof.Machine.step_open_cell ht hs, Sys2Proof.Machine.init_cell⟩

/-- Settles O38: no command and no other thing an event can do writes the configuration or the decrypted table. -/
theorem configurationAndDecryptedTableNeverChange : Obligations.ConfigurationAndDecryptedTableNeverChange :=
  fun _ _ ht => Sys2Proof.Machine.step_cfg_dec_eq ht

/-- Settles O6: the step takes the first event, and an access that decodes runs its instruction. -/
theorem stepRunsTheDecodedBusAccess : Obligations.StepRunsTheDecodedBusAccess := by
  intro s e es i hf he hdecodes
  rw [Sys2Proof.Machine.step_of_event hf he]
  rcases hdecodes with ⟨p, v, m, rfl, hd⟩ | ⟨p, rfl, hd⟩
  · exact Sys2Proof.Machine.runEvent_busWrite _ hd
  · exact Sys2Proof.Machine.runEvent_busRead _ hd

/-- Settles O39: the step takes the first event, and the switch's event writes `sw` alone. -/
theorem switchChangeSetsTheSwitchAlone : Obligations.SwitchChangeSetsTheSwitchAlone := by
  intro s es v hf he
  rw [Sys2Proof.Machine.step_of_event hf he, Sys2Proof.Machine.runEvent_setSwitch]
end

section
/-! PROOFS. The memories and their writers: how a step takes its event, who may write each piece of state, and what the host's
and the core's reads answer. -/

namespace Sys2Proof.Machine

/-! ## The events and the replies across one event -/

theorem CommandResult.events_replies_eq {s t : State} (hr : CommandResult s t) :
    t.events = s.events ∧ t.replies = s.replies := by
  cases hr <;> exact ⟨rfl, rfl⟩

theorem EventResult.events_eq {s t : State} {e : Event} (hr : EventResult s e t) : t.events = s.events := by
  cases hr with
  | dispatched n v m _ _ hcmd => exact hcmd.events_replies_eq.1
  | merged | statusRead | wrote8 | wrote16 | read8 | read16 | reset | switched => rfl

/-- Only a status read and the host's reads answer the host (spec/70_reset_and_hazards.md R229). -/
theorem EventResult.replies_eq_or_read {s t : State} {e : Event} (hr : EventResult s e t) :
    t.replies = s.replies ∨
      (∃ r, t.replies = s.replies ++ [r]) ∧ (e = .busRead 4 ∨ (∃ a, e = .hostRead8 a) ∨ ∃ a, e = .hostRead16 a) := by
  cases hr with
  | dispatched n v m _ _ hcmd => exact .inl hcmd.events_replies_eq.2
  | statusRead => exact .inr ⟨⟨_, rfl⟩, .inl rfl⟩
  | read8 a => exact .inr ⟨⟨_, rfl⟩, .inr (.inl ⟨a, rfl⟩)⟩
  | read16 a => exact .inr ⟨⟨_, rfl⟩, .inr (.inr ⟨a, rfl⟩)⟩
  | merged | wrote8 | wrote16 | reset | switched => exact .inl rfl

theorem EventResult.replies_grow {s t : State} {e : Event} (hr : EventResult s e t) :
    ∃ rs, t.replies = s.replies ++ rs := by
  rcases hr.replies_eq_or_read with heq | ⟨⟨r, hgrow⟩, -⟩
  · exact ⟨[], by simp [heq]⟩
  · exact ⟨[r], hgrow⟩

/-! ## What a dispatch writes, by the header's first byte -/

/-- Everything a dispatch can do, each write with the header's first byte that leads to it
(spec/30_encoding.md R85, spec/42_dispatcher.md R130). -/
inductive DispatchResult (s : State) : State → Prop where
  | idle : DispatchResult s s
  | raised (f : Fault) : DispatchResult s { s with fault := some f }
  | wroteShm (a : Nat) (bs : List Byte)
      (h : Memory.read s.shm 0x10 = some 0x02#8 ∨ Memory.read s.shm 0x10 = some 0x03#8 ∨
        Memory.read s.shm 0x10 = some 0x04#8) :
      DispatchResult s (memWriteBytes s a bs)
  | wroteStore (v : Vector Word 64)
      (h : Memory.read s.shm 0x10 = some 0x42#8 ∨ Memory.read s.shm 0x10 = some 0x43#8) :
      DispatchResult s (storeWriteAll s v)
  | emitted (op : Byte) (d : DiagRecord) (h : Memory.read s.shm 0x10 = some op)
      (hop : op ∉ ([0x02#8, 0x03#8, 0x04#8, 0x42#8, 0x43#8] : List Byte)) : DispatchResult s (emitDiag s d)

/-- The high bytes of the opcode words that a branch of the dispatcher takes (spec/30_encoding.md R85). -/
def OpTakesByte : Op → Byte → Prop
  | .loadset, b => b = 0x02#8
  | .rdsw, b => b = 0x03#8
  | .prot, b => b = 0x04#8
  | .saveset, b => b = 0x42#8
  | .factdef, b => b = 0x43#8
  | .unrecognised, b => b ∉ ([0x02#8, 0x03#8, 0x04#8, 0x42#8, 0x43#8] : List Byte)

theorem routeOp_opTakesByte (opcode : Word) : OpTakesByte (routeOp opcode) (hiByte opcode) := by
  unfold routeOp
  split_ifs with h02 h03 h04 h42 h43
  · exact h02
  · exact h03
  · exact h04
  · exact h42
  · exact h43
  · simp [OpTakesByte, h02, h03, h04, h42, h43]

/-- A command that commits its effect records a fault or has that effect. -/
theorem DispatchResult.of_commit {s t : State} {e : Except Fault State} (h : whenRunning s (commit s e) = .next t)
    (hok : e = .ok t → DispatchResult s t) : DispatchResult s t := by
  rcases commit_cases (whenRunning_next h).2 with he | ⟨f, -, rfl⟩
  · exact hok he
  · exact .raised _

theorem factdefEffect_result {s : State} (hop : Memory.read s.shm 0x10 = some 0x43#8) :
    DispatchResult s (factdefEffect s) := by
  unfold factdefEffect
  split
  · exact .wroteStore _ (.inr hop)
  · exact .idle

theorem routeCommand_result {s t : State} {k : Header} (hop : Memory.read s.shm 0x10 = some (hiByte k.opcode))
    (h : routeCommand k s = .next t) : DispatchResult s t := by
  have hb := routeOp_opTakesByte k.opcode
  unfold routeCommand at h
  generalize routeOp k.opcode = op at h hb
  cases op with
  | loadset =>
    refine .of_commit h fun he => ?_
    obtain ⟨-, rfl⟩ := loadsetEffect_ok he
    exact .wroteShm _ _ (.inl (hop.trans (congrArg some hb)))
  | rdsw =>
    refine .of_commit h fun he => ?_
    obtain ⟨-, rfl⟩ := rdswEffect_ok he
    exact .wroteShm _ [hiByte s.sw, loByte s.sw] (.inr (.inl (hop.trans (congrArg some hb))))
  | prot =>
    refine .of_commit h fun he => ?_
    obtain ⟨bs, -, rfl⟩ := protEffect_ok he
    exact .wroteShm _ _ (.inr (.inr (hop.trans (congrArg some hb))))
  | saveset =>
    refine .of_commit h fun he => ?_
    obtain ⟨-, bytes, -, rfl⟩ := savesetEffect_ok he
    exact .wroteStore _ (.inl (hop.trans (congrArg some hb)))
  | factdef =>
    cases (whenRunning_next h).2
    exact factdefEffect_result (hop.trans (congrArg some hb))
  | unrecognised =>
    cases (whenRunning_next h).2
    exact .emitted _ _ hop hb

theorem dispatch_result {s t : State} (h : dispatch s = .next t) : DispatchResult s t := by
  unfold dispatch at h
  split at h
  · cases h
    exact .raised _
  · next k hk =>
    obtain ⟨b0, b1, _, _, _, _, hop, -, -, -, -, -, rfl⟩ := readHeader_ok hk
    exact routeCommand_result (by simpa using hop) h

/-! ## The writers of each piece of state -/

/-- The event is a write to one of the four cells. -/
def Event.IsCellWrite (e : Event) : Prop := ∃ n < 4, ∃ v m, e = .busWrite n v m

theorem Event.isCellWrite_busWrite (n : Fin 4) (v m : Word) : (Event.busWrite n v m).IsCellWrite :=
  ⟨n, n.isLt, v, m, rfl⟩

theorem EventResult.store_writer {s t : State} {e : Event} (hr : EventResult s e t) (hne : t.store ≠ s.store) :
    e.IsCellWrite ∧ (Memory.read s.shm 0x10 = some 0x42#8 ∨ Memory.read s.shm 0x10 = some 0x43#8) := by
  cases hr with
  | dispatched n v m _ hd _ =>
    refine ⟨Event.isCellWrite_busWrite n v m, ?_⟩
    cases dispatch_result hd with
    | wroteStore _ h => exact h
    | idle | raised | wroteShm | emitted => exact absurd rfl hne
  | merged | statusRead | wrote8 | wrote16 | read8 | read16 | reset | switched => exact absurd rfl hne

theorem EventResult.shm_writer {s t : State} {e : Event} (hr : EventResult s e t) (hne : t.shm ≠ s.shm) :
    (∃ a v, e = .hostWrite8 a v) ∨ (∃ a v, e = .hostWrite16 a v) ∨
      (e.IsCellWrite ∧ (Memory.read s.shm 0x10 = some 0x02#8 ∨ Memory.read s.shm 0x10 = some 0x03#8 ∨
        Memory.read s.shm 0x10 = some 0x04#8)) := by
  cases hr with
  | dispatched n v m _ hd _ =>
    refine .inr (.inr ⟨Event.isCellWrite_busWrite n v m, ?_⟩)
    cases dispatch_result hd with
    | wroteShm _ _ h => exact h
    | idle | raised | wroteStore | emitted => exact absurd rfl hne
  | wrote8 a v => exact .inl ⟨a, v, rfl⟩
  | wrote16 a v => exact .inr (.inl ⟨a, v, rfl⟩)
  | merged | statusRead | read8 | read16 | reset | switched => exact absurd rfl hne

theorem EventResult.diag_writer {s t : State} {e : Event} (hr : EventResult s e t) (hne : t.diag ≠ s.diag) :
    e.IsCellWrite ∧ ∃ op d, Memory.read s.shm 0x10 = some op ∧
      op ∉ ([0x02#8, 0x03#8, 0x04#8, 0x42#8, 0x43#8] : List Byte) ∧ t.diag = s.diag ++ [d] := by
  cases hr with
  | dispatched n v m _ hd _ =>
    refine ⟨Event.isCellWrite_busWrite n v m, ?_⟩
    cases dispatch_result hd with
    | emitted op d h hop => exact ⟨op, d, h, hop, rfl⟩
    | idle | raised | wroteShm | wroteStore => exact absurd rfl hne
  | merged | statusRead | wrote8 | wrote16 | read8 | read16 | reset | switched => exact absurd rfl hne

theorem CommandResult.sw_eq {s t : State} (hr : CommandResult s t) : t.sw = s.sw := by
  cases hr <;> rfl

theorem EventResult.sw_writer {s t : State} {e : Event} (hr : EventResult s e t) (hne : t.sw ≠ s.sw) :
    e = .setSwitch t.sw := by
  cases hr with
  | dispatched n v m _ _ hcmd => exact absurd hcmd.sw_eq hne
  | switched v => rfl
  | merged | statusRead | wrote8 | wrote16 | read8 | read16 | reset => exact absurd rfl hne

/-! ## The host's accesses -/

theorem runEvent_hostWrite8 (a : Nat) (v : Byte) (s : State) :
    runEvent (.hostWrite8 a v) s = hostAccess s a 1 (memWrite8 s a v) := rfl

theorem runEvent_hostWrite16 (a : Nat) (v : Word) (s : State) :
    runEvent (.hostWrite16 a v) s = hostAccess s a 2 (memWrite16 s a v) := rfl

theorem runEvent_hostRead8 (a : Nat) (s : State) :
    runEvent (.hostRead8 a) s = hostAccess s a 1 (reply s (.bytes [Memory.read s.shm a])) := rfl

theorem runEvent_hostRead16 (a : Nat) (s : State) :
    runEvent (.hostRead16 a) s =
      hostAccess s a 2 (reply s (.bytes [Memory.read s.shm a, Memory.read s.shm (a + 1)])) := rfl

theorem hostAccess_byte (s : State) (a : Nat) (t : State) :
    (a < s.cfg.shmBytes → hostAccess s a 1 t = .next t) ∧
      (s.cfg.shmBytes ≤ a → hostAccess s a 1 t = .refused (.hostOutOfRange a)) := by
  have haligned : ¬(1 = 2 ∧ a % 2 = 1) := by omega
  rw [hostAccess, if_neg haligned]
  exact ⟨fun ha => if_neg (by omega), fun ha => if_pos (by omega)⟩

theorem hostAccess_word (s : State) (a : Nat) (t : State) :
    (a % 2 = 0 → a + 1 < s.cfg.shmBytes → hostAccess s a 2 t = .next t) ∧
      (a % 2 = 0 → s.cfg.shmBytes ≤ a + 1 → hostAccess s a 2 t = .refused (.hostOutOfRange a)) ∧
      (a % 2 = 1 → hostAccess s a 2 t = .refused (.hostUnaligned a)) := by
  have haligned (heven : a % 2 = 0) : ¬(2 = 2 ∧ a % 2 = 1) := by omega
  refine ⟨fun heven ha => ?_, fun heven ha => ?_, fun hodd => if_pos ⟨rfl, hodd⟩⟩ <;>
    rw [hostAccess, if_neg (haligned heven)]
  · exact if_neg (by omega)
  · exact if_pos (by omega)

/-- A word is written high byte first, and no other byte is touched (spec/20_memory.md R51, R53). -/
theorem Memory.read_writeBytes_pair (m : Memory) (a : Nat) (h l : Byte) :
    Memory.read (Memory.writeBytes m a [h, l]) a = some h ∧
      Memory.read (Memory.writeBytes m a [h, l]) (a + 1) = some l ∧
      ∀ x, x ≠ a → x ≠ a + 1 → Memory.read (Memory.writeBytes m a [h, l]) x = Memory.read m x := by
  refine ⟨by simp [Memory.read_write], by simp, fun x hx hx1 => ?_⟩
  simp [Memory.read_write, hx, hx1]

/-! ## The core's reads -/

theorem memRead8_of_passes {s : State} {a : Nat} (h : s.cfg.shmBytes ≤ a) : memRead8 s a = .error (.shmRange a) := by
  simp [memRead8, rangeCheck_of_passes (n := 1) (Nat.lt_succ_of_le h), Nat.max_eq_left h]

theorem memRead8_of_written {s : State} {a : Nat} {b : Byte} (h : a < s.cfg.shmBytes)
    (hb : Memory.read s.shm a = some b) : memRead8 s a = .ok b := by
  simp [memRead8, rangeCheck_of_fits (n := 1) (Nat.succ_le_of_lt h), hb]

theorem memRead8_of_unwritten {s : State} {a : Nat} (h : a < s.cfg.shmBytes) (hb : Memory.read s.shm a = none) :
    memRead8 s a = .error (.uninitRead a) := by
  simp [memRead8, rangeCheck_of_fits (n := 1) (Nat.succ_le_of_lt h), hb]

theorem memRead16_of_passes {s : State} {a : Nat} (h : s.cfg.shmBytes < a + 2) :
    memRead16 s a = .error (.shmRange (max a s.cfg.shmBytes)) := by
  simp [memRead16, rangeCheck_of_passes h]

theorem decRead_of_passes {s : State} {i : Nat} (h : s.cfg.romSize ≤ i) : decRead s i = .error (.romRange i) := by
  simp [decRead, romCheck_of_passes (n := 1) (Nat.lt_succ_of_le h), Nat.max_eq_left h]

theorem decRead_of_getElem? {s : State} {i : Nat} {b : Byte} (hlen : s.dec.length = s.cfg.romSize)
    (hb : s.dec[i]? = some b) : decRead s i = .ok b := by
  obtain ⟨hi, -⟩ := List.getElem?_eq_some_iff.1 hb
  rw [decRead_of_lt (hlen ▸ hi), List.getD_eq_getElem?_getD, hb, Option.getD_some]

end Sys2Proof.Machine

open Sys2Proof Sys2Proof.Machine

/-- Settles O10: the event taken is the first, and what it can do (`EventResult`) leaves the rest of the events and appends to
the replies at most. -/
theorem eventsAreTakenOnceInOrder : Obligations.EventsAreTakenOnceInOrder := by
  intro s t ht
  obtain ⟨-, e, es, hes, hr⟩ := step_result ht
  exact ⟨⟨e, by rw [hes, hr.events_eq]⟩, hr.replies_grow⟩

/-- Settles O37: one lemma per piece of state, each over what an event can do (`EventResult`) and, for a dispatch, over what
the header's first byte lets it do (`DispatchResult`). -/
theorem eachStateHasOnlyItsWriters : Obligations.EachStateHasOnlyItsWriters := by
  intro s t ht
  obtain ⟨-, e, es, hes, hr⟩ := step_result ht
  have hhead : s.events.head? = some e := by rw [hes, List.head?_cons]
  simp only [hhead, Option.some.injEq]
  exact ⟨hr.store_writer, hr.shm_writer, hr.diag_writer, hr.sw_writer,
    fun hne => (hr.replies_eq_or_read.resolve_left hne).2⟩

/-- Settles O33: a host access in range is its memory operation on the state with the event taken, one out of range or at an
odd word address a refusal. -/
theorem hostAccessesActOnSharedMemoryAlone : Obligations.HostAccessesActOnSharedMemoryAlone := by
  intro s es a v w hf
  refine ⟨fun he => ?_, fun he => ?_, fun he => ?_, fun he => ?_⟩ <;> rw [step_of_event hf he]
  · rw [runEvent_hostWrite8]
    obtain ⟨hfits, hpasses⟩ := hostAccess_byte { s with events := es } a (memWrite8 { s with events := es } a v)
    exact ⟨fun ha => ⟨_, hfits ha, rfl, Memory.read_write_same .., fun _ hx => Memory.read_write_other _ _ hx⟩, hpasses⟩
  · rw [runEvent_hostWrite16]
    obtain ⟨hfits, hrefused⟩ := hostAccess_word { s with events := es } a (memWrite16 { s with events := es } a w)
    exact ⟨fun heven ha => ⟨_, hfits heven ha, rfl, Memory.read_writeBytes_pair ..⟩, hrefused⟩
  · rw [runEvent_hostRead8]
    exact hostAccess_byte _ a _
  · rw [runEvent_hostRead16]
    exact hostAccess_word _ a _

/-- Settles O34: the range check comes first, then the bytes in ascending order. -/
theorem memReadChecksThenReadsBigEndian : Obligations.MemReadChecksThenReadsBigEndian := by
  intro s a
  refine ⟨memRead8_of_passes, fun ha => ?_, fun ha => ?_, fun ha => ?_, fun ha => memRead16_first_unwritten ha,
    fun ha hh hl => ?_, fun h l ha hh hl => memRead16_of_written ha hh hl⟩
  · cases hb : Memory.read s.shm a with
    | none => exact memRead8_of_unwritten ha hb
    | some b => exact memRead8_of_written ha hb
  · rw [memRead16_of_passes (by omega), Nat.max_eq_left ha]
  · rw [memRead16_of_passes (by omega), ha, Nat.max_eq_right (Nat.le_succ a)]
  · obtain ⟨h, hh⟩ := Option.isSome_iff_exists.1 hh
    exact memRead16_second_unwritten ha hh hl

/-- Settles O36: an index with a byte of the table is below ROM_SIZE, and the check refuses every other. -/
theorem decReadReturnsTheByteOrRomRange : Obligations.DecReadReturnsTheByteOrRomRange :=
  fun _ _ hlen => ⟨fun _ hb => decRead_of_getElem? hlen hb, decRead_of_passes⟩
end

section
/-! PROOFS. The encoding: the decoder and the encoder are each other's inverses, the fields a command ignores, the odd
destinations, and the pseudo-instruction CMD. -/

namespace Sys2Proof.Machine

/-! ## The decoder on a header -/

/-- The opcode map read off the two bytes of the opcode word (spec/30_encoding.md R85, R86). -/
theorem decodeHeader_joinBytes (op qual : Byte) (dest param : Word) :
    decodeHeader (joinBytes op qual) dest param =
      if op = 0x02#8 then .loadset qual dest param
      else if op = 0x03#8 then .rdsw qual dest param
      else if op = 0x04#8 then .prot qual dest param
      else if op = 0x42#8 then .saveset qual dest param
      else if op = 0x43#8 then .factdef qual dest param
      else .unrecognised (joinBytes op qual) dest param := by
  simp only [decodeHeader, routeOp, hiByte_joinBytes, loByte_joinBytes]
  split_ifs <;> rfl

theorem decodeHeader_joinBytes_of_notMem {op : Byte} (hop : op ∉ ([0x02#8, 0x03#8, 0x04#8, 0x42#8, 0x43#8] : List Byte))
    (qual : Byte) (dest param : Word) :
    decodeHeader (joinBytes op qual) dest param = .unrecognised (joinBytes op qual) dest param := by
  simp only [List.mem_cons, List.not_mem_nil, or_false, not_or] at hop
  obtain ⟨h02, h03, h04, h42, h43⟩ := hop
  rw [decodeHeader_joinBytes, if_neg h02, if_neg h03, if_neg h04, if_neg h42, if_neg h43]

theorem routeOp_joinBytes (op qual qual' : Byte) : routeOp (joinBytes op qual) = routeOp (joinBytes op qual') := by
  simp only [routeOp, hiByte_joinBytes]

/-- An unrecognised command is well formed exactly when its high byte is none of the five of R85. -/
theorem wf_unrecognised_iff (opcode dest param : Word) :
    (Instr.unrecognised opcode dest param).wf = true ↔
      hiByte opcode ∉ ([0x02#8, 0x03#8, 0x04#8, 0x42#8, 0x43#8] : List Byte) := by
  simp [Instr.wf, hiByte]

theorem decodeHeader_wf_encodeWords (opcode dest param : Word) :
    (decodeHeader opcode dest param).wf = true ∧
      encodeWords (decodeHeader opcode dest param) = (opcode, dest, param) := by
  obtain ⟨op, qual, rfl⟩ : ∃ op qual, opcode = joinBytes op qual := ⟨_, _, (joinBytes_hi_lo opcode).symm⟩
  rw [decodeHeader_joinBytes]
  split_ifs with h02 h03 h04 h42 h43
  · exact ⟨rfl, by rw [encodeWords, h02]⟩
  · exact ⟨rfl, by rw [encodeWords, h03]⟩
  · exact ⟨rfl, by rw [encodeWords, h04]⟩
  · exact ⟨rfl, by rw [encodeWords, h42]⟩
  · exact ⟨rfl, by rw [encodeWords, h43]⟩
  · exact ⟨by simp [wf_unrecognised_iff, h02, h03, h04, h42, h43], rfl⟩

/-! ## Words and bytes of an encoding -/

theorem decodeWords_encodeWords {i : Instr} (hwf : i.wf = true) :
    decodeWords i.format (encodeWords i).1 (encodeWords i).2.1 (encodeWords i).2.2 = .ok i := by
  cases i with
  | loadset | rdsw | prot | saveset | factdef => exact congrArg Except.ok (decodeHeader_joinBytes ..)
  | unrecognised opcode dest param =>
    have h := decodeHeader_joinBytes_of_notMem ((wf_unrecognised_iff ..).1 hwf) (loByte opcode) dest param
    rw [joinBytes_hi_lo] at h
    exact congrArg Except.ok h
  | hsw0 | hsw1 | hsw2 | hsw3 | statrd => rfl

/-- Three words written high byte first decode as the words do. -/
theorem decodeBytes_of_decodeWords {f : Format} {w0 w1 w2 : Word} {i : Instr} (h : decodeWords f w0 w1 w2 = .ok i)
    (rest : List Byte) :
    decodeBytes f (hiByte w0 :: loByte w0 :: hiByte w1 :: loByte w1 :: hiByte w2 :: loByte w2 :: rest) =
      .ok (i, rest) := by
  simp only [decodeBytes, joinBytes_hi_lo, h]

/-! ## The fields a command ignores -/

theorem exec_decodeHeader_qual {op : Byte} (hop : op ∈ ([0x02#8, 0x03#8, 0x04#8, 0x42#8, 0x43#8] : List Byte))
    (qual qual' : Byte) (dest param : Word) (s : State) :
    exec (decodeHeader (joinBytes op qual) dest param) s = exec (decodeHeader (joinBytes op qual') dest param) s := by
  simp only [List.mem_cons, List.not_mem_nil, or_false] at hop
  rw [decodeHeader_joinBytes, decodeHeader_joinBytes]
  rcases hop with rfl | rfl | rfl | rfl | rfl <;> rfl

theorem exec_unrecognised_next {opcode dest param : Word} {s t : State}
    (h : exec (.unrecognised opcode dest param) s = .next t) :
    s.fault = none ∧ t = emitDiag s ⟨opcode, dest, param⟩ := by
  obtain ⟨hf, ht⟩ := whenRunning_next h
  cases ht
  exact ⟨hf, rfl⟩

theorem exec_unrecognised_of_running {s : State} (hf : s.fault = none) (opcode dest param : Word) :
    exec (.unrecognised opcode dest param) s = .next (emitDiag s ⟨opcode, dest, param⟩) :=
  whenRunning_of_running hf _

theorem exec_factdef_of_running {s : State} (hf : s.fault = none) (qual : Byte) (dest param : Word) :
    exec (.factdef qual dest param) s = .next (factdefEffect s) :=
  whenRunning_of_running hf _

theorem factdefEffect_fault (s : State) : (factdefEffect s).fault = s.fault := by
  unfold factdefEffect; split <;> rfl

theorem subCommand_joinBytes (high sub : Byte) : subCommand (joinBytes high sub) = sub := loByte_joinBytes high sub

/-! ## Odd destinations -/

theorem commit_error_of_running {s : State} (hf : s.fault = none) (f : Fault) :
    whenRunning s (commit s (.error f)) = .next { s with fault := some f } := by
  rw [whenRunning_of_running hf, commit_error, raise_of_running hf]

/-- A destination that ODD_DEST_POLICY = FAULT refuses is the first fault of each of the four commands. -/
theorem effects_of_bad_dest {s : State} {dest : Word} (h : dest.toNat % 2 = 1 ∧ s.cfg.oddDest = .fault) (sub : Byte) :
    loadsetEffect s dest = .error (.oddDest dest.toNat) ∧ savesetEffect s dest = .error (.oddDest dest.toNat) ∧
      rdswEffect s dest = .error (.oddDest dest.toNat) ∧ protEffect s dest sub = .error (.oddDest dest.toNat) := by
  simp only [loadsetEffect, savesetEffect, rdswEffect, protEffect, wordBase_of_bad h, oddDestCheck_of_bad h,
    except_error_bind, and_self]

/-- The word before an odd destination has the same word index (spec/30_encoding.md R84). -/
theorem wordIndex_sub_one_of_odd {dest : Word} (hodd : dest.toNat % 2 = 1) : wordIndex (dest - 1) = wordIndex dest := by
  have hpred : (dest - 1).toNat = dest.toNat - 1 := by bv_omega
  simp only [wordIndex, hpred, Nat.shiftRight_eq_div_pow]
  omega

theorem wordBase_sub_one_of_split {c : Config} {dest : Word} (hodd : dest.toNat % 2 = 1) (hsplit : c.oddDest = .split) :
    wordBase c (dest - 1) = wordBase c dest := by
  have hgood (d : Word) : ¬(d.toNat % 2 = 1 ∧ c.oddDest = .fault) := by simp [hsplit]
  rw [wordBase_of_good (hgood _), wordBase_of_good (hgood _), wordIndex_sub_one_of_odd hodd]

/-- The word commands take their destination through `wordBase` alone. -/
theorem effects_congr_wordBase {s : State} {dest dest' : Word} (h : wordBase s.cfg dest' = wordBase s.cfg dest) :
    loadsetEffect s dest' = loadsetEffect s dest ∧ savesetEffect s dest' = savesetEffect s dest ∧
      rdswEffect s dest' = rdswEffect s dest := by
  simp only [loadsetEffect, savesetEffect, rdswEffect, h, and_self]

/-! ## The events of CMD -/

theorem step_of_hostWrite16 {s : State} {a : Nat} {v : Word} {es : List Event} (hf : s.fault = none)
    (he : s.events = .hostWrite16 a v :: es) (heven : a % 2 = 0) (ha : a + 1 < s.cfg.shmBytes) :
    step s = .next { s with shm := Memory.writeBytes s.shm a [hiByte v, loByte v], events := es } := by
  rw [step_of_event hf he, runEvent_hostWrite16]
  exact (hostAccess_word { s with events := es } a _).1 heven ha

/-- The bytes of a header of three words, each word high byte first (spec/20_memory.md R51). -/
def headerBytes (opcode dest param : Word) : List Byte :=
  [hiByte opcode, loByte opcode, hiByte dest, loByte dest, hiByte param, loByte param]

/-- The three host writes of CMD store the header. -/
theorem runSteps_headerWrites {s : State} (opcode dest param : Word) (es : List Event) (hf : s.fault = none)
    (hshm : 0x16 ≤ s.cfg.shmBytes) (k : Nat) :
    runSteps (k + 3) { s with
        events := .hostWrite16 0x10 opcode :: .hostWrite16 0x12 dest :: .hostWrite16 0x14 param :: es } =
      runSteps k { memWriteBytes s 0x10 (headerBytes opcode dest param) with events := es } := by
  refine Eq.trans (runSteps_succ_of_next _ (step_of_hostWrite16 hf rfl rfl (by simp only; omega))) ?_
  refine Eq.trans (runSteps_succ_of_next _ (step_of_hostWrite16 hf rfl rfl (by simp only; omega))) ?_
  refine Eq.trans (runSteps_succ_of_next _ (step_of_hostWrite16 hf rfl rfl (by simp only; omega))) ?_
  simp only [memWriteBytes, headerBytes, Memory.writeBytes_cons, Memory.writeBytes_nil]

theorem readHeader_of_headerBytes {s : State} {m : Memory} {opcode dest param : Word} (hshm : 0x16 ≤ s.cfg.shmBytes)
    (hm : s.shm = Memory.writeBytes m 0x10 (headerBytes opcode dest param)) :
    readHeader s = .ok ⟨opcode, dest, param⟩ := by
  have hread (j : Nat) (hj : j < 6) : Memory.read s.shm (0x10 + j) = (headerBytes opcode dest param)[j]? := by
    have hrange : 0x10 ≤ 0x10 + j ∧ 0x10 + j < 0x10 + (headerBytes opcode dest param).length := by
      simp only [headerBytes, List.length_cons, List.length_nil]; omega
    rw [hm, Memory.read_writeBytes, if_pos hrange, Nat.add_sub_cancel_left]
  have h := readHeader_of_written hshm (hread 0 (by decide)) (hread 1 (by decide)) (hread 2 (by decide))
    (hread 3 (by decide)) (hread 4 (by decide)) (hread 5 (by decide))
  simpa only [joinBytes_hi_lo] using h

/-- A full sentinel write that leaves another cell open sets its cell. -/
theorem runSteps_openSentinelWrite {s : State} {hs : Vector Word 4} {n : Fin 4} {es : List Event} (hf : s.fault = none)
    (hopen : allSentinel (hs.set n sentinel) = false) (k : Nat) :
    runSteps (k + 1) { s with hs := hs, events := .busWrite n.val sentinel sentinel :: es } =
      runSteps k { s with hs := hs.set n sentinel, events := es } := by
  refine runSteps_succ_of_next k (Eq.trans (step_of_sentinelWrite hf rfl) ?_)
  rw [hopen, if_neg Bool.false_ne_true]

/-- From cleared cells the four writes of CMD complete the pattern at the last of them (spec/41_handshake.md R113). -/
theorem runSteps_sentinelWrites {s : State} (es : List Event) (hf : s.fault = none)
    (hhs : s.hs = Vector.replicate 4 0x0000#16) :
    runSteps 4 { s with events := sentinelWrites ++ es } = dispatch { s with events := es } := by
  rw [hhs]
  refine Eq.trans (runSteps_openSentinelWrite (n := 0) hf (by decide) 3) ?_
  refine Eq.trans (runSteps_openSentinelWrite (n := 1) hf (by decide) 2) ?_
  refine Eq.trans (runSteps_openSentinelWrite (n := 2) hf (by decide) 1) ?_
  rw [runSteps_one]
  exact Eq.trans (step_of_sentinelWrite (n := 3) hf rfl) (if_pos rfl)

end Sys2Proof.Machine

open Sys2Proof Sys2Proof.Machine

/-- Settles O1: the words of the encoding decode to the instruction, and the bytes hold the words high byte first. -/
theorem decodeOfEncodedBytesIsTheInstruction : Obligations.DecodeOfEncodedBytesIsTheInstruction :=
  fun _ rest hwf => decodeBytes_of_decodeWords (decodeWords_encodeWords hwf) rest

/-- Settles O2: the opcode word is its two bytes, and each branch of the opcode map keeps both of them. -/
theorem everyHeaderIsACommandThatEncodesBack : Obligations.EveryHeaderIsACommandThatEncodesBack := by
  intro opcode dest param
  obtain ⟨hwf, hwords⟩ := decodeHeader_wf_encodeWords opcode dest param
  exact ⟨hwf, decodeHeader_format opcode dest param, hwords⟩

/-- Settles O5: the routing reads the high byte alone, the recognised commands ignore their qualifier, and an unrecognised
one shows it in its own record only. -/
theorem theQualifierChangesNoResult : Obligations.TheQualifierChangesNoResult := by
  intro op qual qual' dest param s
  simp only [append_eq_joinBytes]
  refine ⟨routeOp_joinBytes op qual qual', fun hop => exec_decodeHeader_qual hop qual qual' dest param s,
    fun hop t ht => ?_⟩
  rw [decodeHeader_joinBytes_of_notMem hop] at ht ⊢
  obtain ⟨hf, rfl⟩ := exec_unrecognised_next ht
  exact exec_unrecognised_of_running hf _ dest param

/-- Settles O9: three host writes store the header, four sentinel writes dispatch, and the dispatch reads the header back. -/
theorem cmdEventsRunTheCommand : Obligations.CmdEventsRunTheCommand := by
  intro s opcode dest param es hf hshm hhs
  have hstored : (memWriteBytes s 0x10 (headerBytes opcode dest param)).hs = Vector.replicate 4 0x0000#16 := hhs
  calc
    _ = runSteps 4 { memWriteBytes s 0x10 (headerBytes opcode dest param) with events := sentinelWrites ++ es } :=
      runSteps_headerWrites opcode dest param (sentinelWrites ++ es) hf hshm 4
    _ = dispatch { memWriteBytes s 0x10 (headerBytes opcode dest param) with events := es } :=
      runSteps_sentinelWrites es hf hstored
    _ = _ := dispatch_of_header (readHeader_of_headerBytes hshm rfl)

/-- Settles O28: under FAULT the destination's check is the first of each command; under SPLIT the word commands see the
destination through its word index only. -/
theorem oddDestinationFollowsThePolicy : Obligations.OddDestinationFollowsThePolicy := by
  intro s qual dest param opcode hf hodd
  refine ⟨fun hfault => ?_, fun hsplit => ?_, factdefEffect s, emitDiag s ⟨opcode, dest, param⟩,
    exec_factdef_of_running hf qual dest param, (factdefEffect_fault s).trans hf,
    exec_unrecognised_of_running hf opcode dest param, hf⟩
  · obtain ⟨hload, hsave, hrdsw, hprot⟩ := effects_of_bad_dest ⟨hodd, hfault⟩ (subCommand param)
    simp only [List.forall_mem_cons, exec, execLoadset, execSaveset, execRdsw, execProt, hload, hsave, hrdsw, hprot,
      commit_error_of_running hf, List.not_mem_nil, false_imp_iff, implies_true, and_self]
  · obtain ⟨hload, hsave, hrdsw⟩ := effects_congr_wordBase (wordBase_sub_one_of_split hodd hsplit)
    simp only [exec, execLoadset, execSaveset, execRdsw, hload, hsave, hrdsw, and_self]

/-- Settles O3: the opcode map at each high byte, and the ports of the bus events. -/
theorem decodingFollowsTheOpcodeMap : Obligations.DecodingFollowsTheOpcodeMap := by
  intro op qual dest param
  simp only [append_eq_joinBytes]
  refine ⟨?_, ?_, ?_, ?_, ?_, fun hop => decodeHeader_joinBytes_of_notMem hop qual dest param, decodeBusWrite_port, rfl⟩
  all_goals
    rintro rfl
    exact decodeHeader_joinBytes ..

/-- Settles O4: twelve closed words, decoded by evaluation. -/
theorem tableWordsDecodeToTheirInstructions : Obligations.TableWordsDecodeToTheirInstructions := by
  unfold Obligations.TableWordsDecodeToTheirInstructions
  decide

/-- Settles O31: PROT takes only the low byte of its parameter, and the other commands take none of it. -/
theorem parameterHighByteIsIgnored : Obligations.ParameterHighByteIsIgnored := by
  intro s qual high high' sub dest param param'
  refine ⟨?_, rfl, rfl, rfl, fun _ => rfl⟩
  simp only [append_eq_joinBytes, exec, execProt, subCommand_joinBytes]
end

section
/-! PROOFS. The decryptor: the key byte a position takes, and the decrypted byte there. -/

namespace Sys2Proof.Machine

/-! ## The lane swap: the key index of a position -/

theorem xor_one_mod_of_even {i : Nat} (hi : i % 2 = 0) : (i ^^^ 1) % 256 = i % 256 + 1 := by
  rw [Nat.xor_one_of_even (Nat.even_iff.mpr hi)]
  omega

theorem xor_one_mod_of_odd {i : Nat} (hi : i % 2 = 1) : (i ^^^ 1) % 256 = i % 256 - 1 := by
  rw [Nat.xor_one_of_odd (Nat.odd_iff.mpr hi)]
  omega

/-! ## The key byte and the decrypted byte -/

/-- The mask `0xFF` of the key index is the remainder modulo 256, so the index is always inside the table. -/
theorem decryptKey_eq_getD (t : Vector Byte 256) (i : Nat) :
    decryptKey t i = t.toList.getD ((i ^^^ 1) % 256) 0x00#8 := by
  have hmask : (i ^^^ 1) &&& 0xFF = (i ^^^ 1) % 256 := Nat.and_two_pow_sub_one_eq_mod _ 8
  have hlt : (i ^^^ 1) % 256 < t.toList.length := by
    rw [Vector.length_toList]
    exact Nat.mod_lt _ (by decide)
  rw [List.getD_eq_getElem _ _ hlt, Vector.getElem_toList]
  simp only [decryptKey, hmask]

theorem decrypt_getElem?_of_some {raw : List Byte} {i : Nat} {b : Byte} (t : Vector Byte 256) (hb : raw[i]? = some b) :
    (decrypt t raw)[i]? = some (b + decryptKey t i) := by
  rw [decrypt_getElem?, hb, Option.map_some]

/-- Adding a key byte modulo 256 is injective in the key (spec/40_decryptor.md R103). -/
theorem decrypt_getElem?_inj {raw : List Byte} {i : Nat} (t t' : Vector Byte 256) (hi : i < raw.length) :
    (decrypt t raw)[i]? = (decrypt t' raw)[i]? ↔ decryptKey t i = decryptKey t' i := by
  have hb := List.getElem?_eq_getElem hi
  rw [decrypt_getElem?_of_some t hb, decrypt_getElem?_of_some t' hb, Option.some_inj, BitVec.add_right_inj]

end Sys2Proof.Machine

open Sys2Proof Sys2Proof.Machine

/-- Settles O40: the key index `(i ^ 1) & 0xFF` stays in its 256-byte block and swaps the two lanes. -/
theorem decryptAddsTheLaneSwappedKey : Obligations.DecryptAddsTheLaneSwappedKey := by
  refine fun t raw => ⟨decrypt_length t raw, fun i b hb => ?_⟩
  have hbyte := decrypt_getElem?_of_some t hb
  rw [decryptKey_eq_getD] at hbyte
  refine ⟨hbyte, fun heven => ?_, fun hodd => ?_⟩
  · rwa [xor_one_mod_of_even heven] at hbyte
  · rwa [xor_one_mod_of_odd hodd] at hbyte

/-- Settles O41: the raw byte is the same for both tables, and adding it loses nothing of the key byte. -/
theorem decryptionDiffersExactlyWhereTheKeysDiffer : Obligations.DecryptionDiffersExactlyWhereTheKeysDiffer := by
  intro t t' raw i hi
  rw [← decryptKey_eq_getD, ← decryptKey_eq_getD]
  exact not_congr (decrypt_getElem?_inj t t' hi)
end

section
/-! PROOFS. The handshake gate: when a write completes the pattern, what it does in either case, and the order of the four
sentinel writes; the status read, the accesses with no step, and the instruction placed for the next step. -/

namespace Sys2Proof.Machine

/-! ## The write that completes the pattern -/

theorem sentinel_getLsbD {i : Nat} (hi : i < 16) : sentinel.getLsbD i = true := by
  have hones : sentinel = BitVec.allOnes 16 := by decide
  rw [hones, BitVec.getLsbD_allOnes, decide_eq_true hi]

/-- The merged cell is the sentinel exactly when every merged bit is 1 (spec/41_handshake.md R112). -/
theorem merge_eq_sentinel_iff (old value mask : Word) :
    merge old value mask = sentinel ↔
      ∀ i < 16, (if mask.getLsbD i then value.getLsbD i else old.getLsbD i) = true := by
  simp only [← merge_bit]
  refine ⟨fun h i hi => h ▸ sentinel_getLsbD hi, fun h => BitVec.eq_of_getLsbD_eq fun i hi => ?_⟩
  rw [h i hi, sentinel_getLsbD hi]

/-- The vector's own law, for a cell index of type `Fin 4` as the cells are read everywhere. -/
theorem cells_set_other (hs : Vector Word 4) {n k : Fin 4} (w : Word) (hk : k ≠ n) : (hs.set n w)[k] = hs[k] :=
  Vector.getElem_set_ne _ _ fun h => hk (Fin.ext h.symm)

theorem cells_set_self (hs : Vector Word 4) (n : Fin 4) (w : Word) : (hs.set n w)[n] = w :=
  Vector.getElem_set_self _

/-- One cell's new value completes the pattern exactly when it and the other three cells are the sentinel. -/
theorem allSentinel_set_iff (hs : Vector Word 4) (n : Fin 4) (w : Word) :
    allSentinel (hs.set n w) = true ↔ (∀ k, k ≠ n → hs[k] = sentinel) ∧ w = sentinel := by
  rw [allSentinel_iff]
  refine ⟨fun h => ⟨fun k hk => (cells_set_other hs w hk).symm.trans (h k), (cells_set_self hs n w).symm.trans (h n)⟩,
    fun ⟨hothers, hw⟩ k => ?_⟩
  by_cases hk : k = n
  · rw [hk, cells_set_self, hw]
  · rw [cells_set_other hs w hk, hothers k hk]

/-- A masked write completes the pattern exactly when the other three cells are the sentinel and its merged bits are all 1
(spec/41_handshake.md R113, R114). -/
theorem allSentinel_writeCell_iff (s : State) (n : Fin 4) (v m : Word) :
    allSentinel (writeCell s n v m).hs = true ↔
      (∀ k, k ≠ n → s.hs[k] = sentinel) ∧
        ∀ i < 16, (if m.getLsbD i then v.getLsbD i else s.hs[n].getLsbD i) = true := by
  rw [writeCell_hs, allSentinel_set_iff, merge_eq_sentinel_iff]

/-! ## What a handshake write does -/

theorem exec_hsw_of_open {s : State} {n : Fin 4} {v m : Word} (hf : s.fault = none)
    (hopen : ¬allSentinel (writeCell s n v m).hs = true) : exec (.hsw n v m) s = .next (writeCell s n v m) := by
  rw [exec_hsw, handshakeWrite, whenRunning_of_running hf, if_neg hopen]

/-- The merged cells are cleared before the dispatch, so it sees nothing of the merge (spec/41_handshake.md R113). -/
theorem exec_hsw_of_complete {s : State} {n : Fin 4} {v m : Word} (hf : s.fault = none)
    (hall : allSentinel (writeCell s n v m).hs = true) : exec (.hsw n v m) s = dispatch (clearCells s) := by
  rw [exec_hsw, handshakeWrite, whenRunning_of_running hf, if_pos hall]
  rfl

/-! ## The four sentinel writes, in any order -/

theorem clearedCells_open : ∀ k : Fin 4, (Vector.replicate 4 0x0000#16)[k] ≠ sentinel := by decide

/-- Full sentinel writes to exactly the open cells, each once, dispatch at the last of them, whatever their order
(spec/41_handshake.md R114). -/
theorem runSteps_sentinelWrites_to_openCells {s : State} (es : List Event) (hf : s.fault = none) (n : Fin 4)
    (rest : List (Fin 4)) (hs : Vector Word 4) (hnodup : (n :: rest).Nodup)
    (hopen : ∀ k : Fin 4, hs[k] = sentinel ↔ k ∉ n :: rest) :
    runSteps (rest.length + 1)
        { s with hs := hs, events := (n :: rest).map (fun k : Fin 4 => Event.busWrite k.val sentinel sentinel) ++ es } =
      dispatch { s with hs := Vector.replicate 4 0x0000#16, events := es } := by
  induction rest generalizing n hs with
  | nil =>
    have hall : allSentinel (hs.set n sentinel) = true :=
      (allSentinel_set_iff hs n sentinel).2 ⟨fun k hk => (hopen k).2 (by simpa using hk), rfl⟩
    rw [List.length_nil, runSteps_one]
    exact Eq.trans (step_of_sentinelWrite hf rfl) (if_pos hall)
  | cons n' rest ih =>
    obtain ⟨hn, hnodup'⟩ := List.nodup_cons.1 hnodup
    have hn' : n' ≠ n := fun h => hn (h ▸ List.mem_cons_self)
    have hstill : allSentinel (hs.set n sentinel) = false := by
      refine (allSentinel_eq_false_iff _).2 ⟨n', ?_⟩
      rw [cells_set_other hs sentinel hn', Ne, hopen n']
      exact not_not_intro (List.mem_cons_of_mem n List.mem_cons_self)
    refine Eq.trans (runSteps_openSentinelWrite hf hstill _) (ih n' (hs.set n sentinel) hnodup' fun k => ?_)
    by_cases hk : k = n
    · rw [hk, cells_set_self]
      exact iff_of_true rfl hn
    · rw [cells_set_other hs sentinel hk, hopen k, List.mem_cons, or_iff_right hk]

/-! ## The status read and the accesses with no step -/

theorem decodeBusRead_of_lt {p : Nat} (hp : p < 4) : decodeBusRead p = .error (.handshakeRead p) := by
  rw [decodeBusRead, if_neg (by omega), if_pos hp]

theorem decodeBusRead_of_gt {p : Nat} (hp : 4 < p) : decodeBusRead p = .error (.noSuchPort p) := by
  rw [decodeBusRead, if_neg (by omega), if_neg (by omega)]

theorem decodeBusWrite_of_gt {p : Nat} (hp : 4 < p) (v m : Word) : decodeBusWrite p v m = .error (.noSuchPort p) := by
  obtain ⟨k, rfl⟩ : ∃ k, p = k + 5 := ⟨p - 5, by omega⟩
  rfl

theorem step_of_rejected_busRead {s : State} {p : Nat} {es : List Event} {r : Reject} (hf : s.fault = none)
    (he : s.events = .busRead p :: es) (hd : decodeBusRead p = .error r) : step s = .refused (.rejected r) := by
  rw [step_of_event hf he, runEvent, hd, busAccess]

theorem step_of_rejected_busWrite {s : State} {p : Nat} {v m : Word} {es : List Event} {r : Reject} (hf : s.fault = none)
    (he : s.events = .busWrite p v m :: es) (hd : decodeBusWrite p v m = .error r) :
    step s = .refused (.rejected r) := by
  rw [step_of_event hf he, runEvent, hd, busAccess]

/-! ## The instruction placed for the next step -/

theorem hsw_format (n : Fin 4) (v m : Word) : (Instr.hsw n v m).format = .bus := by
  match n with
  | 0 => rfl
  | 1 => rfl
  | 2 => rfl
  | 3 => rfl

/-- The decoder takes the three words of a table word in their order (log entry 7). -/
theorem decodeWords_of_decodeTableWord {nbits w : Nat} {i : Instr} (h : decodeTableWord nbits w = some i) :
    decodeWords (tableFormat nbits) (tableWord w 0) (tableWord w 1) (tableWord w 2) = .ok i := by
  simp only [decodeTableWord, tableBytes, decodeBytes, joinBytes_hi_lo] at h
  cases hd : decodeWords (tableFormat nbits) (tableWord w 0) (tableWord w 1) (tableWord w 2) with
  | ok j => simpa [hd] using h
  | error r => simp [hd] at h

/-- The event of a bus instruction's three words runs that instruction, a read for port 4 and a write for every other port
(spec/30_encoding.md R81). -/
theorem runEvent_busEvent {p : Nat} {v m : Word} {i : Instr} (s : State) (h : decodeBus p v m = .ok i) :
    i.format = .bus ∧ runEvent (busEvent p v m) s = exec i s := by
  unfold decodeBus at h
  unfold busEvent
  split at h
  · next hp =>
    rw [if_pos hp]
    obtain ⟨-, rfl⟩ := decodeBusRead_ok h
    exact ⟨rfl, runEvent_busRead s h⟩
  · next hp =>
    rw [if_neg hp]
    obtain ⟨n, -, rfl⟩ := decodeBusWrite_ok h
    exact ⟨hsw_format n v m, runEvent_busWrite s h⟩

theorem withFetchWord_of_bus {s : State} {nbits w : Nat} (hbus : tableFormat nbits = .bus) :
    s.withFetchWord nbits w =
      { s with events := busEvent (tableWord w 0).toNat (tableWord w 1) (tableWord w 2) :: s.events } := by
  rw [State.withFetchWord, placeTableWord, hbus]

theorem withFetchWord_of_cmd {s : State} {nbits w : Nat} (hcmd : tableFormat nbits = .cmd) :
    s.withFetchWord nbits w =
      { s with
        shm := Memory.writeBytes s.shm 0x10 (tableBytes w)
        hs := #v[sentinel, sentinel, sentinel, 0x0000#16]
        events := .busWrite 3 sentinel sentinel :: s.events } := by
  rw [State.withFetchWord, placeTableWord, hcmd]

theorem step_withFetchWord_of_bus {s : State} {nbits w : Nat} {i : Instr} (hf : s.fault = none)
    (hbus : tableFormat nbits = .bus) (hd : decodeBus (tableWord w 0).toNat (tableWord w 1) (tableWord w 2) = .ok i) :
    i.format = .bus ∧ step (s.withFetchWord nbits w) = exec i s := by
  obtain ⟨hformat, hrun⟩ := runEvent_busEvent s hd
  refine ⟨hformat, ?_⟩
  rw [withFetchWord_of_bus hbus]
  exact Eq.trans (step_of_event hf rfl) hrun

theorem allSentinel_set_placedCells :
    allSentinel ((#v[sentinel, sentinel, sentinel, 0x0000#16] : Vector Word 4).set (3 : Fin 4) sentinel) = true := by
  decide

theorem tableBytes_eq_headerBytes (w : Nat) :
    tableBytes w = headerBytes (tableWord w 0) (tableWord w 1) (tableWord w 2) := rfl

/-- The write placed for a command completes the pattern, and the dispatch reads back the header that was placed. -/
theorem step_withFetchWord_of_cmd {s : State} {nbits w : Nat} (hf : s.fault = none) (hshm : 0x16 ≤ s.cfg.shmBytes)
    (hcmd : tableFormat nbits = .cmd) :
    step (s.withFetchWord nbits w) =
      exec (decodeHeader (tableWord w 0) (tableWord w 1) (tableWord w 2))
        { s with shm := Memory.writeBytes s.shm 0x10 (tableBytes w), hs := Vector.replicate 4 0x0000#16 } := by
  have hheader : readHeader { s with
      shm := Memory.writeBytes s.shm 0x10 (tableBytes w), hs := Vector.replicate 4 0x0000#16 } =
      .ok ⟨tableWord w 0, tableWord w 1, tableWord w 2⟩ :=
    readHeader_of_headerBytes hshm (by rw [tableBytes_eq_headerBytes])
  have hrun := dispatch_of_header hheader
  rw [withFetchWord_of_cmd hcmd]
  refine Eq.trans (step_of_sentinelWrite (n := 3) hf rfl) ?_
  exact Eq.trans (if_pos allSentinel_set_placedCells) hrun

end Sys2Proof.Machine

open Sys2Proof Sys2Proof.Machine

/-- Settles O8: the placed bus event runs what its words decode to, and the placed write dispatches the placed header. -/
theorem fetchWordRunsTheDecodedInstruction : Obligations.FetchWordRunsTheDecodedInstruction := by
  intro s nbits w i hf hshm hi
  have hd := decodeWords_of_decodeTableWord hi
  cases hfmt : tableFormat nbits with
  | bus =>
    rw [hfmt] at hd
    obtain ⟨hbus, hstep⟩ := step_withFetchWord_of_bus hf hfmt hd
    exact ⟨fun _ => hstep, fun hcmd => by simp [hbus] at hcmd⟩
  | cmd =>
    rw [hfmt] at hd
    cases hd
    have hcmd := decodeHeader_format (tableWord w 0) (tableWord w 1) (tableWord w 2)
    exact ⟨fun hbus => by simp [hcmd] at hbus, fun _ => step_withFetchWord_of_cmd hf hshm hfmt⟩

/-- Settles O13: the hypothesis says that the merged cells are not all the sentinel, so the write ends with its merge. -/
theorem handshakeWriteMergesBitwise : Obligations.HandshakeWriteMergesBitwise := by
  intro s n v m hf hopen
  have hnot : ¬allSentinel (writeCell s n v m).hs = true := by
    rw [allSentinel_writeCell_iff]
    rintro ⟨hothers, hbits⟩
    rcases hopen with ⟨k, hk, hne⟩ | ⟨i, hi, hbit⟩
    · exact hne (hothers k hk)
    · exact Bool.false_ne_true (hbit.symm.trans (hbits i hi))
  refine ⟨writeCell s n v m, exec_hsw_of_open hf hnot, writeCell_frame s n v m, fun i _ => ?_,
    fun k hk => writeCell_other s v m hk⟩
  rw [writeCell_self, merge_bit]

/-- Settles O14: the write completes the pattern, and no result of a dispatch touches the cells it was given cleared. -/
theorem completingWriteResetsThenDispatches : Obligations.CompletingWriteResetsThenDispatches := by
  intro s n v m hf hothers hbits
  have hexec := exec_hsw_of_complete hf ((allSentinel_writeCell_iff s n v m).2 ⟨hothers, hbits⟩)
  refine ⟨hexec, fun t ht => ?_⟩
  have hresult : CommandResult (clearCells s) t := dispatch_next hf (hexec.symm.trans ht)
  exact hresult.hs_eq

/-- Settles O15: cleared cells are all open, and an order of the four ports names each of them once. -/
theorem fourSentinelWritesInAnyOrderDispatchOnce : Obligations.FourSentinelWritesInAnyOrderDispatchOnce := by
  intro s order es hf hhs hperm
  cases order with
  | nil => simp at hperm
  | cons n rest =>
    have hlen : rest.length + 1 = 4 := hperm.length_eq
    have hnodup : (n :: rest).Nodup := hperm.nodup_iff.2 (by decide)
    have hmem : ∀ k : Fin 4, k ∈ ([0, 1, 2, 3] : List (Fin 4)) := by decide
    have hopen (k : Fin 4) : (Vector.replicate 4 0x0000#16)[k] = sentinel ↔ k ∉ n :: rest :=
      iff_of_false (clearedCells_open k) (not_not_intro (hperm.mem_iff.2 (hmem k)))
    have hrun := runSteps_sentinelWrites_to_openCells es hf n rest _ hnodup hopen
    rw [hlen] at hrun
    rwa [hhs]

/-- Settles O11: each of these accesses decodes to a rejection, which the step answers. -/
theorem accessesOutsideTheInterfaceAreRefused : Obligations.AccessesOutsideTheInterfaceAreRefused := by
  intro s es p v m hf
  refine ⟨fun hp he => step_of_rejected_busRead hf he (decodeBusRead_of_lt hp),
    fun he => step_of_rejected_busWrite hf he rfl, fun hp he => ?_⟩
  rcases he with he | he
  · exact step_of_rejected_busRead hf he (decodeBusRead_of_gt hp)
  · exact step_of_rejected_busWrite hf he (decodeBusWrite_of_gt hp v m)

/-- Settles O12: a running state answers with its configuration's status value, a faulted one has no step. -/
theorem statusReadReturnsTheStatusValue : Obligations.StatusReadReturnsTheStatusValue :=
  fun _ => ⟨fun hf => whenRunning_of_running hf _, fun _ hf => whenRunning_of_faulted hf _⟩
end

section
/-! PROOFS. The command dispatcher: the header a dispatch reads, what each settings command does or faults with, the round
trip of the settings, and what a response depends on. -/

namespace Sys2Proof.Machine

/-! ## A command that commits its effect -/

theorem commit_of_ok {s t : State} {e : Except Fault State} (hf : s.fault = none) (he : e = .ok t) :
    whenRunning s (commit s e) = .next t := by
  rw [whenRunning_of_running hf, he, commit_ok]

theorem commit_of_error {s : State} {e : Except Fault State} {f : Fault} (hf : s.fault = none) (he : e = .error f) :
    whenRunning s (commit s e) = .next { s with fault := some f } := by
  rw [he, commit_error_of_running hf]

/-- A command that ends without a fault has had its effect. -/
theorem ok_of_commit_unfaulted {s t : State} {e : Except Fault State} (h : whenRunning s (commit s e) = .next t)
    (ht : t.fault = none) : s.fault = none ∧ e = .ok t := by
  obtain ⟨hf, h⟩ := whenRunning_next h
  rcases commit_cases h with he | ⟨f, -, rfl⟩
  · exact ⟨hf, he⟩
  · cases ht

/-! ## The destination of the word commands -/

/-- The shape that LOADSET, SAVESET and RDSW share (spec/42_dispatcher.md R132, R133, R135, R141): the destination, the range
of `n` bytes, then the copy `f` at the destination's byte address. -/
def wordEffect (s : State) (dest : Word) (n : Nat) (f : Nat → Except Fault State) : Except Fault State := do
  let base ← wordBase s.cfg dest
  rangeCheck s.cfg base n
  f base

theorem loadsetEffect_eq_wordEffect (s : State) (dest : Word) :
    loadsetEffect s dest = wordEffect s dest 128 fun base => .ok (memWriteBytes s base (storeBytes s)) := rfl

theorem savesetEffect_eq_wordEffect (s : State) (dest : Word) :
    savesetEffect s dest = wordEffect s dest 128 fun base =>
      shmBytesAt s.shm base 128 >>= fun bytes => .ok (storeWriteAll s (wordsOfBytes bytes)) := rfl

theorem rdswEffect_eq_wordEffect (s : State) (dest : Word) :
    rdswEffect s dest = wordEffect s dest 2 fun base => .ok (memWrite16 s base s.sw) := rfl

section
variable {s : State} {dest : Word} {n : Nat} {f : Nat → Except Fault State}

theorem wordEffect_of_bad (h : dest.toNat % 2 = 1 ∧ s.cfg.oddDest = .fault) :
    wordEffect s dest n f = .error (.oddDest dest.toNat) := by
  rw [wordEffect, wordBase_of_bad h, except_error_bind]

theorem wordEffect_of_passes (hgood : ¬(dest.toNat % 2 = 1 ∧ s.cfg.oddDest = .fault))
    (h : s.cfg.shmBytes < 2 * wordIndex dest + n) :
    wordEffect s dest n f = .error (.shmRange (max (2 * wordIndex dest) s.cfg.shmBytes)) := by
  rw [wordEffect, wordBase_of_good hgood, except_ok_bind, rangeCheck_of_passes h, except_error_bind]

theorem wordEffect_of_fits (hgood : ¬(dest.toNat % 2 = 1 ∧ s.cfg.oddDest = .fault))
    (h : 2 * wordIndex dest + n ≤ s.cfg.shmBytes) : wordEffect s dest n f = f (2 * wordIndex dest) := by
  rw [wordEffect, wordBase_of_good hgood, except_ok_bind, rangeCheck_of_fits h, except_ok_bind]

/-- An effect that is no fault has passed both checks. -/
theorem wordEffect_ok {t : State} (h : wordEffect s dest n f = .ok t) :
    ¬(dest.toNat % 2 = 1 ∧ s.cfg.oddDest = .fault) ∧ 2 * wordIndex dest + n ≤ s.cfg.shmBytes ∧
      f (2 * wordIndex dest) = .ok t := by
  have hgood : ¬(dest.toNat % 2 = 1 ∧ s.cfg.oddDest = .fault) := fun hbad => by
    rw [wordEffect_of_bad hbad] at h; cases h
  have hfits : 2 * wordIndex dest + n ≤ s.cfg.shmBytes := Nat.le_of_not_lt fun hpasses => by
    rw [wordEffect_of_passes hgood hpasses] at h; cases h
  exact ⟨hgood, hfits, (wordEffect_of_fits hgood hfits).symm.trans h⟩

end

/-! ## Copies of bytes and words -/

theorem Memory.read_writeBytes_of_lt (m : Memory) (a : Nat) {bs : List Byte} {j : Nat} (hj : j < bs.length) :
    Memory.read (Memory.writeBytes m a bs) (a + j) = bs[j]? := by
  rw [Memory.read_writeBytes, if_pos (by omega), Nat.add_sub_cancel_left]

theorem Memory.read_writeBytes_of_outside (m : Memory) {a x : Nat} {bs : List Byte} (hx : x < a ∨ a + bs.length ≤ x) :
    Memory.read (Memory.writeBytes m a bs) x = Memory.read m x := by
  rw [Memory.read_writeBytes, if_neg (by omega)]

theorem Memory.readBytes_writeBytes (m : Memory) (a : Nat) (bs : List Byte) :
    Memory.readBytes (Memory.writeBytes m a bs) a bs.length = .ok bs := by
  have hread {j : Nat} (hj : j < bs.length) := Memory.read_writeBytes_of_lt m a hj
  obtain ⟨cs, hcs⟩ : ∃ cs, Memory.readBytes (Memory.writeBytes m a bs) a bs.length = .ok cs :=
    Memory.readBytes_of_written fun j hj => by rw [hread hj, List.getElem?_eq_getElem hj, Option.isSome_some]
  obtain ⟨hlen, hcread⟩ := Memory.readBytes_ok hcs
  have heq : cs = bs := List.ext_getElem? fun j => by
    by_cases hj : j < bs.length
    · rw [← hcread j hj, hread hj]
    · rw [List.getElem?_eq_none (by omega), List.getElem?_eq_none (by omega)]
  rw [hcs, heq]

theorem shmBytesAt_of_readBytes {m : Memory} {a n : Nat} {bs : List Byte} (h : Memory.readBytes m a n = .ok bs) :
    shmBytesAt m a n = .ok bs := by
  rw [shmBytesAt, h]

theorem shmBytesAt_of_unwritten {m : Memory} {a n j : Nat} (hj : j < n) (hn : Memory.read m (a + j) = none)
    (hs : ∀ i < j, (Memory.read m (a + i)).isSome = true) : shmBytesAt m a n = .error (.uninitRead (a + j)) := by
  rw [shmBytesAt, Memory.readBytes_of_unwritten hj hn hs]

theorem wordsOfBytes_getElem (bytes : List Byte) (k : Fin 64) :
    (wordsOfBytes bytes)[k] = joinBytes (bytes.getD (2 * k) 0x00#8) (bytes.getD (2 * k + 1) 0x00#8) := by
  simp [wordsOfBytes]

/-- Each store word is the two bytes of memory at its place, high byte first (spec/42_dispatcher.md R135). -/
theorem wordsOfBytes_of_readBytes {m : Memory} {a : Nat} {bytes : List Byte} {k : Fin 64} {h l : Byte}
    (hb : Memory.readBytes m a 128 = .ok bytes) (hh : Memory.read m (a + 2 * k) = some h)
    (hl : Memory.read m (a + 2 * k + 1) = some l) : (wordsOfBytes bytes)[k] = joinBytes h l := by
  obtain ⟨-, hread⟩ := Memory.readBytes_ok hb
  rw [hread _ (by omega)] at hh
  rw [Nat.add_assoc, hread _ (by omega)] at hl
  rw [wordsOfBytes_getElem, List.getD_eq_getElem?_getD, List.getD_eq_getElem?_getD, hh, hl, Option.getD_some,
    Option.getD_some]

/-- Splitting the words of 128 bytes gives the bytes back (spec/42_dispatcher.md R136). -/
theorem storeBytes_of_wordsOfBytes {s : State} {bytes : List Byte} (hlen : bytes.length = 128)
    (hs : s.store = wordsOfBytes bytes) : storeBytes s = bytes := by
  refine List.ext_getElem? fun j => ?_
  by_cases hj : j < 128
  · obtain ⟨k, rfl | rfl⟩ := Nat.even_or_odd' j
    · have hword := (storeBytes_getElem? s ⟨k, by omega⟩).1
      rw [hs, wordsOfBytes_getElem, hiByte_joinBytes, List.getD_eq_getElem _ _ (by simp only; omega)] at hword
      rw [hword, List.getElem?_eq_getElem]
    · have hword := (storeBytes_getElem? s ⟨k, by omega⟩).2
      rw [hs, wordsOfBytes_getElem, loByte_joinBytes, List.getD_eq_getElem _ _ (by simp only; omega)] at hword
      rw [hword, List.getElem?_eq_getElem]
  · rw [List.getElem?_eq_none (by rw [storeBytes_length]; omega), List.getElem?_eq_none (by omega)]

/-- Joining the bytes of a store's words gives the words back (spec/42_dispatcher.md R136). -/
theorem wordsOfBytes_storeBytes (s : State) : wordsOfBytes (storeBytes s) = s.store := by
  refine Vector.ext fun k hk => ?_
  obtain ⟨hhigh, hlow⟩ := storeBytes_getElem? s ⟨k, hk⟩
  have h := wordsOfBytes_getElem (storeBytes s) ⟨k, hk⟩
  rw [List.getD_eq_getElem?_getD, List.getD_eq_getElem?_getD, hhigh, hlow, Option.getD_some, Option.getD_some,
    joinBytes_hi_lo] at h
  exact h

/-! ## The word commands where their range fits -/

section
variable {s : State} {dest : Word} (hgood : ¬(dest.toNat % 2 = 1 ∧ s.cfg.oddDest = .fault))
include hgood

theorem loadsetEffect_of_fits (h : 2 * wordIndex dest + 128 ≤ s.cfg.shmBytes) :
    loadsetEffect s dest = .ok (memWriteBytes s (2 * wordIndex dest) (storeBytes s)) := by
  rw [loadsetEffect_eq_wordEffect, wordEffect_of_fits hgood h]

theorem savesetEffect_of_unwritten {j : Nat} (h : 2 * wordIndex dest + 128 ≤ s.cfg.shmBytes) (hj : j < 128)
    (hn : Memory.read s.shm (2 * wordIndex dest + j) = none)
    (hs : ∀ i < j, (Memory.read s.shm (2 * wordIndex dest + i)).isSome = true) :
    savesetEffect s dest = .error (.uninitRead (2 * wordIndex dest + j)) := by
  rw [savesetEffect_eq_wordEffect, wordEffect_of_fits hgood h, shmBytesAt_of_unwritten hj hn hs, except_error_bind]

theorem savesetEffect_of_readBytes {bytes : List Byte} (h : 2 * wordIndex dest + 128 ≤ s.cfg.shmBytes)
    (hb : Memory.readBytes s.shm (2 * wordIndex dest) 128 = .ok bytes) :
    savesetEffect s dest = .ok (storeWriteAll s (wordsOfBytes bytes)) := by
  rw [savesetEffect_eq_wordEffect, wordEffect_of_fits hgood h, shmBytesAt_of_readBytes hb, except_ok_bind]

theorem rdswEffect_of_fits (h : 2 * wordIndex dest + 2 ≤ s.cfg.shmBytes) :
    rdswEffect s dest = .ok (memWrite16 s (2 * wordIndex dest) s.sw) := by
  rw [rdswEffect_eq_wordEffect, wordEffect_of_fits hgood h]

end

/-! ## The header of a dispatch -/

theorem readHeader_congr {s s' : State} (hcfg : s'.cfg = s.cfg) (hshm : s'.shm = s.shm) :
    readHeader s' = readHeader s := by
  simp only [readHeader, memRead16, hcfg, hshm]

theorem memRead16_of_isSome {s : State} {a : Nat} (hr : a + 2 ≤ s.cfg.shmBytes)
    (hh : (Memory.read s.shm a).isSome = true) (hl : (Memory.read s.shm (a + 1)).isSome = true) :
    ∃ w, memRead16 s a = .ok w := by
  obtain ⟨h, hh⟩ := Option.isSome_iff_exists.1 hh
  obtain ⟨l, hl⟩ := Option.isSome_iff_exists.1 hl
  exact ⟨joinBytes h l, memRead16_of_written hr hh hl⟩

theorem memRead16_of_unwritten {s : State} {a x : Nat} (hr : a + 2 ≤ s.cfg.shmBytes) (hlo : a ≤ x) (hhi : x < a + 2)
    (hn : Memory.read s.shm x = none) (hs : ∀ y, a ≤ y → y < x → (Memory.read s.shm y).isSome = true) :
    memRead16 s a = .error (.uninitRead x) := by
  obtain rfl | rfl : x = a ∨ x = a + 1 := by omega
  · exact memRead16_first_unwritten hr hn
  · obtain ⟨h, hh⟩ := Option.isSome_iff_exists.1 (hs a (Nat.le_refl a) (Nat.lt_succ_self a))
    exact memRead16_second_unwritten hr hh hn

/-- The words before the first unwritten byte read, and its own word faults on it (spec/42_dispatcher.md R130). -/
theorem readHeader_of_unwritten {s : State} {x : Nat} (hshm : 0x16 ≤ s.cfg.shmBytes) (hlo : 0x10 ≤ x) (hhi : x < 0x16)
    (hn : Memory.read s.shm x = none) (hs : ∀ y, 0x10 ≤ y → y < x → (Memory.read s.shm y).isSome = true) :
    readHeader s = .error (.uninitRead x) := by
  have hfault {a : Nat} (ha : 0x10 ≤ a) (hax : a ≤ x) (hxa : x < a + 2) (hr : a + 2 ≤ 0x16) :
      memRead16 s a = .error (.uninitRead x) :=
    memRead16_of_unwritten (by omega) hax hxa hn fun y hy => hs y (by omega)
  have hread {a : Nat} (ha : 0x10 ≤ a) (hax : a + 1 < x) : ∃ w, memRead16 s a = .ok w :=
    memRead16_of_isSome (by omega) (hs a ha (by omega)) (hs (a + 1) (by omega) hax)
  rw [readHeader]
  by_cases hopcode : x < 0x12
  · rw [hfault (by omega) hlo hopcode (by omega), except_error_bind]
  obtain ⟨o, ho⟩ := hread (a := 0x10) (by omega) (by omega)
  rw [ho, except_ok_bind]
  by_cases hdest : x < 0x14
  · rw [hfault (by omega) (by omega) hdest (by omega), except_error_bind]
  obtain ⟨d, hd⟩ := hread (a := 0x12) (by omega) (by omega)
  rw [hd, except_ok_bind, hfault (by omega) (by omega) hhi (by omega), except_error_bind]

/-! ## Unrecognised commands, triggered twice -/

theorem decodeHeader_of_notMem {opcode : Word}
    (hop : hiByte opcode ∉ ([0x02#8, 0x03#8, 0x04#8, 0x42#8, 0x43#8] : List Byte)) (dest param : Word) :
    decodeHeader opcode dest param = .unrecognised opcode dest param := by
  have h := decodeHeader_joinBytes_of_notMem hop (loByte opcode) dest param
  rwa [joinBytes_hi_lo] at h

theorem dispatch_of_unrecognised {s : State} {h : Header} (hf : s.fault = none) (hr : readHeader s = .ok h)
    (hop : hiByte h.opcode ∉ ([0x02#8, 0x03#8, 0x04#8, 0x42#8, 0x43#8] : List Byte)) :
    dispatch s = .next (emitDiag s ⟨h.opcode, h.dest, h.param⟩) := by
  rw [dispatch_of_header hr, decodeHeader_of_notMem hop, exec_unrecognised_of_running hf]

theorem runSteps_add_of_next {s t : State} (k m : Nat) (h : runSteps k s = .next t) :
    runSteps (k + m) s = runSteps m t := by
  induction k generalizing s with
  | zero => cases h; rw [Nat.zero_add]
  | succ k ih =>
    rw [runSteps_succ] at h
    cases hs : step s with
    | next u => rw [hs] at h; rw [Nat.succ_add, runSteps_succ_of_next _ hs, ih h]
    | fault f => rw [hs] at h; cases h
    | refused r => rw [hs] at h; cases h

/-- A full handshake on cleared cells, the header an unrecognised command's: one record, and the cells cleared again. -/
theorem runSteps_sentinelWrites_of_unrecognised {s : State} {h : Header} (es : List Event) (hf : s.fault = none)
    (hhs : s.hs = Vector.replicate 4 0x0000#16) (hr : readHeader s = .ok h)
    (hop : hiByte h.opcode ∉ ([0x02#8, 0x03#8, 0x04#8, 0x42#8, 0x43#8] : List Byte)) :
    runSteps 4 { s with events := sentinelWrites ++ es } =
      .next { emitDiag s ⟨h.opcode, h.dest, h.param⟩ with events := es } :=
  (runSteps_sentinelWrites es hf hhs).trans
    (dispatch_of_unrecognised hf ((readHeader_congr rfl rfl).trans hr) hop)

/-! ## What a response depends on -/

/-- Two effects, of one command on two states, that are the same fault or the same copy of bytes
(spec/42_dispatcher.md R134, R147). -/
inductive SameResponse (s s' : State) : Except Fault State → Except Fault State → Prop where
  | raised (f : Fault) : SameResponse s s' (.error f) (.error f)
  | wrote (a : Nat) (bs : List Byte) : SameResponse s s' (.ok (memWriteBytes s a bs)) (.ok (memWriteBytes s' a bs))

theorem SameResponse.bind {s s' : State} {α : Type} {f f' : α → Except Fault State} (x : Except Fault α)
    (h : ∀ a, SameResponse s s' (f a) (f' a)) : SameResponse s s' (x >>= f) (x >>= f') := by
  cases x with
  | error e => exact .raised e
  | ok a => exact h a

/-- Every byte is in the copied range, where both states hold the copy, or outside it, where neither changes. -/
theorem SameResponse.fault_and_bytes {s s' t t' : State} {e e' : Except Fault State} (h : SameResponse s s' e e')
    (ht : whenRunning s (commit s e) = .next t) (ht' : whenRunning s' (commit s' e') = .next t') :
    t'.fault = t.fault ∧ ∀ a, Memory.read t'.shm a = Memory.read t.shm a ∨
      (Memory.read t.shm a = Memory.read s.shm a ∧ Memory.read t'.shm a = Memory.read s'.shm a) := by
  obtain ⟨hf, -⟩ := whenRunning_next ht
  obtain ⟨hf', -⟩ := whenRunning_next ht'
  cases h with
  | raised f =>
    rw [commit_error_of_running hf] at ht
    rw [commit_error_of_running hf'] at ht'
    cases ht; cases ht'
    exact ⟨rfl, fun a => .inr ⟨rfl, rfl⟩⟩
  | wrote b bs =>
    rw [commit_of_ok hf rfl] at ht
    rw [commit_of_ok hf' rfl] at ht'
    cases ht; cases ht'
    refine ⟨hf'.trans hf.symm, fun a => ?_⟩
    by_cases hin : b ≤ a ∧ a < b + bs.length
    · obtain ⟨j, rfl⟩ := Nat.exists_eq_add_of_le hin.1
      have hj : j < bs.length := by omega
      exact .inl ((Memory.read_writeBytes_of_lt _ b hj).trans (Memory.read_writeBytes_of_lt _ b hj).symm)
    · have hout : a < b ∨ b + bs.length ≤ a := by omega
      exact .inr ⟨Memory.read_writeBytes_of_outside _ hout, Memory.read_writeBytes_of_outside _ hout⟩

section
variable {s s' : State} (hcfg : s'.cfg = s.cfg)
include hcfg

theorem loadsetEffect_sameResponse (hstore : s'.store = s.store) (dest : Word) :
    SameResponse s s' (loadsetEffect s dest) (loadsetEffect s' dest) := by
  have hbytes : storeBytes s' = storeBytes s := by simp only [storeBytes, storeReadAll, hstore]
  rw [loadsetEffect, loadsetEffect, hcfg, hbytes]
  exact .bind _ fun base => .bind _ fun _ => .wrote base _

theorem rdswEffect_sameResponse (hsw : s'.sw = s.sw) (dest : Word) :
    SameResponse s s' (rdswEffect s dest) (rdswEffect s' dest) := by
  rw [rdswEffect, rdswEffect, swRead, swRead, hcfg, hsw]
  exact .bind _ fun base => .bind _ fun _ => .wrote base [hiByte s.sw, loByte s.sw]

/-- PROT's response reads the configuration and the decrypted table only (spec/42_dispatcher.md R147). -/
theorem protResponse_congr (hdec : s'.dec = s.dec) (d : Nat) (sub : Byte) :
    protResponse s' d sub = protResponse s d sub := by
  simp only [protResponse, overrideResponse, descriptorResponse, readDescriptor, decReadLE16, decRead,
    descriptorPayload, decBytes, hcfg, hdec]

theorem protEffect_sameResponse (hdec : s'.dec = s.dec) (dest : Word) (sub : Byte) :
    SameResponse s s' (protEffect s dest sub) (protEffect s' dest sub) := by
  rw [protEffect, protEffect, hcfg, protResponse_congr hcfg hdec]
  exact .bind _ fun _ => .bind _ fun bs => .wrote _ bs

end

end Sys2Proof.Machine

open Sys2Proof Sys2Proof.Machine

/-- Settles O7: the header read succeeds on six written bytes and else faults on the first unwritten one. -/
theorem dispatchRunsTheDecodedHeader : Obligations.DispatchRunsTheDecodedHeader := by
  intro s hf hshm
  simp only [append_eq_joinBytes]
  refine ⟨fun b0 b1 b2 b3 b4 b5 h0 h1 h2 h3 h4 h5 => ?_, fun k hk hn hs => ?_⟩
  · rw [dispatch_of_header (readHeader_of_written hshm h0 h1 h2 h3 h4 h5)]
  · refine dispatch_of_error hf (readHeader_of_unwritten hshm (by omega) (by omega) hn fun y hlo hy => ?_)
    obtain ⟨j, rfl⟩ := Nat.exists_eq_add_of_le hlo
    exact hs j (by omega)

/-- Settles O18: each of the two handshakes appends the record of the header, which neither of them touches. -/
theorem secondTriggerRunsTheSameHeader : Obligations.SecondTriggerRunsTheSameHeader := by
  intro s op qual b2 b3 b4 b5 es hf hshm hhs hop h0 h1 h2 h3 h4 h5
  simp only [append_eq_joinBytes]
  rw [← hiByte_joinBytes op qual] at hop
  have hheader := readHeader_of_written hshm h0 h1 h2 h3 h4 h5
  have hfirst := runSteps_sentinelWrites_of_unrecognised (sentinelWrites ++ es) hf hhs hheader hop
  rw [List.append_assoc, runSteps_add_of_next 4 4 hfirst,
    runSteps_sentinelWrites_of_unrecognised (s := emitDiag s _) es hf hhs
      ((readHeader_congr rfl rfl).trans hheader) hop]
  simp only [emitDiag, List.append_assoc, List.singleton_append]

/-- Settles O19: LOADSET is a word command that copies the store's bytes. -/
theorem loadsetCopiesTheStoreToSharedMemory : Obligations.LoadsetCopiesTheStoreToSharedMemory := by
  intro s qual dest param hf
  refine ⟨fun hbad => commit_of_error hf (wordEffect_of_bad hbad),
    fun hgood hpasses => commit_of_error hf (wordEffect_of_passes hgood hpasses),
    fun hgood hfits => ⟨_, commit_of_ok hf (loadsetEffect_of_fits hgood hfits), rfl, fun k => ?_, fun a ha => ?_⟩⟩
  · obtain ⟨hhigh, hlow⟩ := storeBytes_getElem? s k
    have hlen := storeBytes_length s
    rw [Nat.add_assoc]
    exact ⟨(Memory.read_writeBytes_of_lt _ _ (by omega)).trans hhigh,
      (Memory.read_writeBytes_of_lt _ _ (by omega)).trans hlow⟩
  · exact Memory.read_writeBytes_of_outside _ (by rwa [storeBytes_length])

/-- Settles O20: SAVESET is a word command that reads 128 written bytes into the store. -/
theorem savesetCopiesSharedMemoryToTheStore : Obligations.SavesetCopiesSharedMemoryToTheStore := by
  intro s qual dest param hf
  refine ⟨fun hbad => commit_of_error hf (wordEffect_of_bad hbad),
    fun hgood hpasses => commit_of_error hf (wordEffect_of_passes hgood hpasses), fun hgood hfits =>
    ⟨fun j hj hn hs => commit_of_error hf (savesetEffect_of_unwritten hgood hfits hj hn hs), fun hwritten => ?_⟩⟩
  obtain ⟨bytes, hb⟩ := Memory.readBytes_of_written hwritten
  exact ⟨_, commit_of_ok hf (savesetEffect_of_readBytes hgood hfits hb), rfl,
    fun k h l hh hl => wordsOfBytes_of_readBytes hb hh hl⟩

/-- Settles O22: RDSW is a word command that copies the switch's two bytes. -/
theorem rdswWritesExactlyTheSwitchWord : Obligations.RdswWritesExactlyTheSwitchWord := by
  intro s qual dest param hf
  exact ⟨fun hbad => commit_of_error hf (wordEffect_of_bad hbad),
    fun hgood hpasses => commit_of_error hf (wordEffect_of_passes hgood hpasses),
    fun hgood hfits => ⟨_, commit_of_ok hf (rdswEffect_of_fits hgood hfits), rfl, Memory.read_writeBytes_pair ..⟩⟩

/-- Settles O29: a SAVESET or a LOADSET that ends without a fault has passed the checks of the other, and splitting words and
joining bytes are inverse to each other. -/
theorem settingsRoundTrip : Obligations.SettingsRoundTrip := by
  refine ⟨fun s t s' q q' dest p p' ht htf hcfg hstore hf' => ?_, fun s t q q' dest p p' ht htf => ?_⟩
  · obtain ⟨-, he⟩ := ok_of_commit_unfaulted ht htf
    obtain ⟨hgood, hfits, -⟩ := wordEffect_ok he
    obtain ⟨-, bytes, hb, rfl⟩ := savesetEffect_ok he
    obtain ⟨hlen, hread⟩ := Memory.readBytes_ok hb
    have hbytes : storeBytes s' = bytes := storeBytes_of_wordsOfBytes hlen hstore
    rw [← storeWriteAll_cfg s (wordsOfBytes bytes), ← hcfg] at hgood hfits
    refine ⟨_, commit_of_ok hf' (loadsetEffect_of_fits hgood hfits), hf', fun j hj => ?_⟩
    rw [memWriteBytes_shm, hbytes, Memory.read_writeBytes_of_lt _ _ (hlen ▸ hj), hread j hj]
  · obtain ⟨-, he⟩ := ok_of_commit_unfaulted ht htf
    obtain ⟨hgood, hfits, -⟩ := wordEffect_ok he
    obtain ⟨-, rfl⟩ := loadsetEffect_ok he
    have hb := Memory.readBytes_writeBytes s.shm (2 * wordIndex dest) (storeBytes s)
    rw [storeBytes_length] at hb
    rw [← memWriteBytes_cfg s (2 * wordIndex dest) (storeBytes s)] at hgood hfits
    exact ⟨_, commit_of_ok htf (savesetEffect_of_readBytes hgood hfits hb), htf, wordsOfBytes_storeBytes s⟩

/-- Settles O30: each of the three commands faults alike on both states or copies the same bytes to the same place. -/
theorem responsesDoNotDependOnPriorMemory : Obligations.ResponsesDoNotDependOnPriorMemory := by
  intro s s' t t' qual dest param hcfg hdec hstore hsw i hi ht ht'
  simp only [List.mem_cons, List.not_mem_nil, or_false] at hi
  rcases hi with rfl | rfl | rfl
  · exact (loadsetEffect_sameResponse hcfg hstore dest).fault_and_bytes ht ht'
  · exact (rdswEffect_sameResponse hcfg hsw dest).fault_and_bytes ht ht'
  · exact (protEffect_sameResponse hcfg hdec dest (subCommand param)).fault_and_bytes ht ht'

/-- Settles O21: FACTDEF checks nothing, and its effect is a store write or none. -/
theorem factdefRestoresTheProfilesDefaults : Obligations.FactdefRestoresTheProfilesDefaults := by
  intro s qual dest param hf
  rw [exec_factdef_of_running hf]
  exact ⟨fun fd hfd => by rw [factdefEffect, hfd]; rfl, fun hnone => by rw [factdefEffect, hnone]⟩

/-- Settles O23: the header decodes to UNRECOGNISED, which appends its record without a check. -/
theorem unrecognisedOpcodeOnlyAppendsARecord : Obligations.UnrecognisedOpcodeOnlyAppendsARecord :=
  fun _ opcode dest param hf hop =>
    ⟨decodeHeader_of_notMem hop dest param, exec_unrecognised_of_running hf opcode dest param⟩

/-- Settles O35: a destination that is not refused starts at its word's byte address, the even one at or below it. -/
theorem wordBaseAndRangeCheckAreAsStated : Obligations.WordBaseAndRangeCheckAreAsStated := by
  intro c dest a n
  have hbase := two_wordIndex dest
  refine ⟨fun hodd hfault => wordBase_of_bad ⟨hodd, hfault⟩, fun hodd hsplit => ?_, fun heven => ?_, rangeCheck_of_fits,
    rangeCheck_of_passes, fun hpasses hn => ⟨Nat.le_max_left .., ?_, fun _ hx hx' => Nat.max_le.2 ⟨hx, hx'⟩⟩⟩
  · rw [wordBase_of_good (by simp [hsplit]), hbase, hodd]
  · rw [wordBase_of_good (by omega), hbase, heven, Nat.sub_zero]
  · exact Nat.max_lt.2 ⟨Nat.lt_add_of_pos_right hn, hpasses⟩
end

section
/-! PROOFS. The protection data provider: what the override literal and the descriptor answer, how PROT copies the
answer to its destination, and which inputs the answer does not depend on. -/

namespace Sys2Proof.Machine

/-! ## The sub-command and its descriptor offset -/

theorem subCommand_toNat (param : Word) : (subCommand param).toNat = param.toNat % 256 := by
  simp [subCommand, loByte]

/-- The mask 0x3F keeps the low six bits of the sub-command (spec/43_protection.md R164). -/
theorem descriptorOffset_eq_mod (sub : Byte) : descriptorOffset sub = sub.toNat % 64 * 8 := by
  rw [descriptorOffset, BitVec.toNat_and]
  exact congrArg (· * 8) (Nat.and_two_pow_sub_one_eq_mod sub.toNat 6)

theorem descriptorOffset_subCommand (param : Word) : descriptorOffset (subCommand param) = param.toNat % 64 * 8 := by
  rw [descriptorOffset_eq_mod, subCommand_toNat, Nat.mod_mod_of_dvd _ (by decide)]

/-! ## From the response to the command -/

section
variable {s : State} {dest : Word} {sub : Byte}

theorem protEffect_of_good (hgood : ¬(dest.toNat % 2 = 1 ∧ s.cfg.oddDest = .fault)) :
    protEffect s dest sub =
      protResponse s (byteDest dest) sub >>= fun bs => .ok (memWriteBytes s (byteDest dest) bs) := by
  rw [protEffect, oddDestCheck_of_good hgood, except_ok_bind]

theorem protEffect_congr_response {sub' : Byte} (h : ∀ d, protResponse s d sub = protResponse s d sub') :
    protEffect s dest sub = protEffect s dest sub' := by
  rw [protEffect, protEffect, h]

end

section
variable {s : State} {dest param : Word} (hf : s.fault = none)
  (hgood : ¬(dest.toNat % 2 = 1 ∧ s.cfg.oddDest = .fault))
include hf hgood

theorem exec_prot_of_error {f : Fault} (qual : Byte)
    (hr : protResponse s (byteDest dest) (subCommand param) = .error f) :
    exec (.prot qual dest param) s = .next { s with fault := some f } :=
  commit_of_error hf (by rw [protEffect_of_good hgood, hr, except_error_bind])

theorem exec_prot_of_ok {bs : List Byte} (qual : Byte)
    (hr : protResponse s (byteDest dest) (subCommand param) = .ok bs) :
    exec (.prot qual dest param) s = .next (memWriteBytes s (byteDest dest) bs) :=
  commit_of_ok hf (by rw [protEffect_of_good hgood, hr, except_ok_bind])

theorem exec_prot_of_empty (qual : Byte) (hr : protResponse s (byteDest dest) (subCommand param) = .ok []) :
    exec (.prot qual dest param) s = .next s :=
  exec_prot_of_ok hf hgood qual hr

/-- The response's bytes stand at ascending addresses from the destination on, and nothing else changes
(spec/43_protection.md R165). -/
theorem exec_prot_copies {bs : List Byte} (qual : Byte)
    (hr : protResponse s (byteDest dest) (subCommand param) = .ok bs) :
    ∃ t, exec (.prot qual dest param) s = .next t ∧ t = { s with shm := t.shm } ∧
      (∀ x < bs.length, Memory.read t.shm (byteDest dest + x) = bs[x]?) ∧
      ∀ a, a < byteDest dest ∨ byteDest dest + bs.length ≤ a → Memory.read t.shm a = Memory.read s.shm a :=
  ⟨_, exec_prot_of_ok hf hgood qual hr, memWriteBytes_frame .., fun _ hx => Memory.read_writeBytes_of_lt _ _ hx,
    fun _ ha => Memory.read_writeBytes_of_outside _ ha⟩

end

/-! ## The override's response (spec/43_protection.md R161, R162) -/

theorem protResponse_of_override {s : State} {sub : Byte} {lit : List Byte}
    (hov : overrideFor s.cfg.profile sub = some lit) (d : Nat) : protResponse s d sub = overrideResponse s d lit := by
  rw [protResponse, hov]

theorem overrideResponse_nil (s : State) (d : Nat) : overrideResponse s d [] = .ok [] := rfl

section
variable {s : State} {d : Nat} {lit : List Byte} (hlit : lit ≠ [])
include hlit

theorem overrideResponse_of_passes (h : s.cfg.shmBytes < d + lit.length) :
    overrideResponse s d lit = .error (.shmRange (max d s.cfg.shmBytes)) := by
  rw [overrideResponse, if_neg (mt List.eq_nil_of_length_eq_zero hlit), rangeCheck_of_passes h, except_error_bind]

theorem overrideResponse_of_fits (h : d + lit.length ≤ s.cfg.shmBytes) : overrideResponse s d lit = .ok lit := by
  rw [overrideResponse, if_neg (mt List.eq_nil_of_length_eq_zero hlit), rangeCheck_of_fits h, except_ok_bind]

end

/-! ## The descriptor's response (spec/43_protection.md R163, R166) -/

theorem protResponse_of_noOverride {s : State} {sub : Byte} (hov : overrideFor s.cfg.profile sub = none) (d : Nat) :
    protResponse s d sub = descriptorResponse s d sub := by
  rw [protResponse, hov]

theorem joinBytes_toNat (h l : Byte) : (joinBytes h l).toNat = l.toNat + 256 * h.toNat := by
  rw [joinBytes, BitVec.toNat_append, Nat.shiftLeft_eq_mul_pow, Nat.mul_comm, ← Nat.two_pow_add_eq_or_of_lt l.isLt]
  omega

/-- The 16-bit field at a table index, low byte first (spec/20_memory.md R59). -/
def tableField (s : State) (i : Nat) : Word := joinBytes (s.dec.getD (i + 1) 0x00#8) (s.dec.getD i 0x00#8)

theorem tableField_toNat (s : State) (i : Nat) :
    (tableField s i).toNat = (s.dec.getD i 0x00#8).toNat + 256 * (s.dec.getD (i + 1) 0x00#8).toNat :=
  joinBytes_toNat ..

theorem decReadLE16_eq_tableField {s : State} {i : Nat} (h : i + 1 < s.cfg.romSize) :
    decReadLE16 s i = .ok (tableField s i) :=
  decReadLE16_of_lt h

section
variable {s : State} {d b : Nat} {sub : Byte} (hb : b = s.cfg.descBase + descriptorOffset sub)
include hb

theorem descriptorResponse_of_passes (h : s.cfg.romSize < b + 8) :
    descriptorResponse s d sub = .error (.romRange (max b s.cfg.romSize)) := by
  rw [descriptorResponse, readDescriptor, ← hb, romCheck_of_passes h, except_error_bind, except_error_bind]

theorem descriptorResponse_of_fits (h : b + 8 ≤ s.cfg.romSize) :
    descriptorResponse s d sub = descriptorPayload s d ⟨tableField s (b + 2), tableField s (b + 4)⟩ := by
  rw [descriptorResponse, readDescriptor, ← hb, romCheck_of_fits h, except_ok_bind,
    decReadLE16_eq_tableField (by omega), except_ok_bind, decReadLE16_eq_tableField (by omega), except_ok_bind,
    except_ok_bind]

end

section
variable {s : State} {d : Nat} {k : Descriptor}

theorem descriptorPayload_of_empty (hlen : k.len.toNat = 0) : descriptorPayload s d k = .ok [] :=
  if_pos hlen

variable {src len : Nat} (hsrc : s.cfg.payloadBase + k.start.toNat = src) (hlen : k.len.toNat = len) (hpos : 0 < len)
include hsrc hlen hpos

theorem descriptorPayload_of_nonempty :
    descriptorPayload s d k =
      romCheck s.cfg src len >>= fun _ => rangeCheck s.cfg d len >>= fun _ => .ok (decBytes s src len) := by
  subst hsrc hlen
  exact if_neg hpos.ne'

theorem descriptorPayload_of_source_passes (h : s.cfg.romSize < src + len) :
    descriptorPayload s d k = .error (.romRange (max src s.cfg.romSize)) := by
  rw [descriptorPayload_of_nonempty hsrc hlen hpos, romCheck_of_passes h, except_error_bind]

theorem descriptorPayload_of_dest_passes (h : src + len ≤ s.cfg.romSize) (hd : s.cfg.shmBytes < d + len) :
    descriptorPayload s d k = .error (.shmRange (max d s.cfg.shmBytes)) := by
  rw [descriptorPayload_of_nonempty hsrc hlen hpos, romCheck_of_fits h, except_ok_bind, rangeCheck_of_passes hd,
    except_error_bind]

theorem descriptorPayload_of_fits (h : src + len ≤ s.cfg.romSize) (hd : d + len ≤ s.cfg.shmBytes) :
    descriptorPayload s d k = .ok (decBytes s src len) := by
  rw [descriptorPayload_of_nonempty hsrc hlen hpos, romCheck_of_fits h, except_ok_bind, rangeCheck_of_fits hd,
    except_ok_bind]

end

/-! ## What the response does not depend on -/

/-- An overridden response reads the configuration alone (spec/43_protection.md R161, R168). -/
theorem protResponse_congr_of_override {s s' : State} {sub : Byte} {lit : List Byte} (hcfg : s'.cfg = s.cfg)
    (hov : overrideFor s.cfg.profile sub = some lit) (d : Nat) : protResponse s' d sub = protResponse s d sub := by
  rw [protResponse_of_override hov, protResponse_of_override (hcfg ▸ hov), overrideResponse, overrideResponse, hcfg]

theorem protEffect_sameResponse_of_override {s s' : State} {sub : Byte} {lit : List Byte} (hcfg : s'.cfg = s.cfg)
    (hov : overrideFor s.cfg.profile sub = some lit) (dest : Word) :
    SameResponse s s' (protEffect s dest sub) (protEffect s' dest sub) := by
  rw [protEffect, protEffect, hcfg, protResponse_congr_of_override hcfg hov]
  exact .bind _ fun _ => .bind _ fun bs => .wrote _ bs

/-- The same response on a state that differs in its table gives a next state that differs in its table. -/
theorem SameResponse.commit_withTable {s t : State} {dec' : List Byte} {e e' : Except Fault State}
    (h : SameResponse s { s with dec := dec' } e e') (ht : whenRunning s (commit s e) = .next t) :
    whenRunning { s with dec := dec' } (commit { s with dec := dec' } e') = .next { t with dec := dec' } := by
  obtain ⟨hf, -⟩ := whenRunning_next ht
  cases h with
  | raised f =>
    rw [commit_error_of_running hf] at ht
    cases ht
    exact commit_error_of_running (s := { s with dec := dec' }) hf f
  | wrote a bs =>
    rw [commit_of_ok hf rfl] at ht
    cases ht
    exact commit_of_ok (s := { s with dec := dec' }) hf rfl

/-- A descriptor is found by its offset alone. -/
theorem descriptorResponse_congr_offset {s : State} {sub sub' : Byte} (h : descriptorOffset sub = descriptorOffset sub')
    (d : Nat) : descriptorResponse s d sub = descriptorResponse s d sub' := by
  simp only [descriptorResponse, readDescriptor, h]

end Sys2Proof.Machine

open Sys2Proof Sys2Proof.Machine

/-- Settles O24: the response is the literal, whose only check is the destination's range, and none when it is empty. -/
theorem protCopiesTheOverrideLiteral : Obligations.ProtCopiesTheOverrideLiteral := by
  intro s qual dest param lit hf hgood hov
  have hresponse := protResponse_of_override (sub := subCommand param) hov (byteDest dest)
  refine ⟨fun hnil => ?_, fun hlit hpasses => ?_, fun hlit hfits => ?_⟩
  · subst hnil
    exact exec_prot_of_empty hf hgood qual (hresponse.trans (overrideResponse_nil ..))
  · exact exec_prot_of_error hf hgood qual (hresponse.trans (overrideResponse_of_passes hlit hpasses))
  · exact exec_prot_copies hf hgood qual (hresponse.trans (overrideResponse_of_fits hlit hfits))

/-- Settles O25: the response is the descriptor's, whose checks are the descriptor's range, the payload's, the
destination's, the last two only when the length is not 0. -/
theorem protStreamsTheDescriptorsPayload : Obligations.ProtStreamsTheDescriptorsPayload := by
  intro s qual dest param b src len hf htable hgood hov hb hsrc hlen
  have hresponse := protResponse_of_noOverride (sub := subCommand param) hov (byteDest dest)
  have hbase : b = s.cfg.descBase + descriptorOffset (subCommand param) := by rw [hb, descriptorOffset_subCommand]
  have hpayload (h : b + 8 ≤ s.cfg.romSize) := hresponse.trans (descriptorResponse_of_fits hbase h)
  rw [← tableField_toNat] at hsrc hlen
  refine ⟨fun h => ?_, fun h hzero => ?_, fun h hpos hpasses => ?_, fun h hpos hsource hpasses => ?_,
    fun h hpos hsource hfits => ?_⟩
  · exact exec_prot_of_error hf hgood qual (hresponse.trans (descriptorResponse_of_passes hbase h))
  · exact exec_prot_of_empty hf hgood qual ((hpayload h).trans (descriptorPayload_of_empty (hlen.symm.trans hzero)))
  · exact exec_prot_of_error hf hgood qual
      ((hpayload h).trans (descriptorPayload_of_source_passes hsrc.symm hlen.symm hpos hpasses))
  · exact exec_prot_of_error hf hgood qual
      ((hpayload h).trans (descriptorPayload_of_dest_passes hsrc.symm hlen.symm hpos hsource hpasses))
  · obtain ⟨t, ht, hframe, hcopy, hrest⟩ := exec_prot_copies hf hgood qual
      ((hpayload h).trans (descriptorPayload_of_fits hsrc.symm hlen.symm hpos hsource hfits))
    rw [decBytes_length (htable ▸ hsource)] at hcopy hrest
    exact ⟨t, ht, hframe, fun x hx => (hcopy x hx).trans (decBytes_getElem? s hx), hrest⟩

/-- Settles O26: with any other table the overridden command faults alike or copies the same bytes to the same place. -/
theorem overriddenResponseIgnoresTheDecryptedTable : Obligations.OverriddenResponseIgnoresTheDecryptedTable := by
  intro s t qual dest param lit dec' hov ht
  have hsame := protEffect_sameResponse_of_override (s := s) (s' := { s with dec := dec' }) rfl hov dest
  exact hsame.commit_withTable ht

/-- Settles O27: without an override a sub-command acts through its descriptor offset, which its low six bits give. -/
theorem descriptorIndexIgnoresTheTopBits : Obligations.DescriptorIndexIgnoresTheTopBits := by
  refine ⟨fun s qual dest param param' hlow hov hov' => ?_, fun sub => ⟨?_, descriptorOffset_lt sub⟩⟩
  · have hoffset : descriptorOffset (subCommand param) = descriptorOffset (subCommand param') := by
      rw [descriptorOffset_subCommand, descriptorOffset_subCommand, hlow]
    have hresponse (d : Nat) : protResponse s d (subCommand param) = protResponse s d (subCommand param') :=
      calc protResponse s d (subCommand param)
        _ = descriptorResponse s d (subCommand param) := protResponse_of_noOverride hov d
        _ = descriptorResponse s d (subCommand param') := descriptorResponse_congr_offset hoffset d
        _ = protResponse s d (subCommand param') := (protResponse_of_noOverride hov' d).symm
    exact congrArg (fun e => whenRunning s (commit s e)) (protEffect_congr_response hresponse)
  · rw [descriptorOffset_eq_mod, Nat.mul_comm]
end

section
/-! PROOFS. Faults: what a raised fault leaves of the state, and that a faulted state has no step. -/

namespace Sys2Proof.Machine

/-! ## Raising a fault -/

/-- A command that ends with a fault has made none of its writes: each of them leaves `fault` as it was
(spec/20_memory.md R58). -/
theorem CommandResult.eq_of_faulted {s t : State} {f : Fault} (hr : CommandResult s t) (hs : s.fault = none)
    (ht : t.fault = some f) : t = { s with fault := some f } := by
  cases hr with
  | raised g =>
    obtain rfl : g = f := Option.some.inj ht
    rfl
  | wroteShm | wroteStore | emitted => cases hs.symm.trans ht

/-- Of all an event can do, only a completing write's dispatch records a fault, on the state with the cells cleared
(spec/41_handshake.md R113). -/
theorem EventResult.eq_of_faulted {s t : State} {e : Event} {f : Fault} (hr : EventResult s e t) (hs : s.fault = none)
    (ht : t.fault = some f) : t = { clearCells s with fault := some f } := by
  cases hr with
  | dispatched n v m _ _ hcmd => exact hcmd.eq_of_faulted hs ht
  | merged | statusRead | wrote8 | wrote16 | read8 | read16 | reset | switched =>
    cases hs.symm.trans ht

/-! ## A faulted state -/

theorem step_of_faulted {s : State} {f : Fault} (h : s.fault = some f) : step s = .fault f :=
  whenRunning_of_faulted h _

/-- Every instruction's meaning begins with `require fault = none`. -/
theorem exec_of_faulted {s : State} {f : Fault} (h : s.fault = some f) (i : Instr) : exec i s = .fault f := by
  cases i <;> exact whenRunning_of_faulted h _

end Sys2Proof.Machine

open Sys2Proof Sys2Proof.Machine

/-- Settles O32: of all an event can do (`EventResult`), only a dispatch faults, on the cleared cells and in place of its
command's writes; every event and every instruction first requires a state without a fault. -/
theorem faultIsStickyAndChangesNothingElse : Obligations.FaultIsStickyAndChangesNothingElse := by
  refine ⟨fun s t f hstep hf => ?_, fun s f hf => ⟨step_of_faulted hf, exec_of_faulted hf⟩⟩
  obtain ⟨hs, e, es, hes, hr⟩ := step_result hstep
  refine ⟨hs, ?_⟩
  rw [hes, List.tail_cons]
  exact hr.eq_of_faulted hs hf
end

section
/-! PROOFS. Reset: the values at initialisation, and the device reset. -/

namespace Sys2Proof.Machine

/-! ## The substitution table of a profile -/

theorem selectTable_of_normal {c : Config} (h : c.profile.tableSel = .normal) : selectTable c = c.tNormal := by
  simp [selectTable, h]

theorem selectTable_of_alt {c : Config} (h : c.profile.tableSel = .alt) : selectTable c = c.tAlt := by
  simp [selectTable, h]

/-! ## The device reset -/

theorem step_of_deviceReset {s : State} {es : List Event} (hf : s.fault = none) (he : s.events = .deviceReset :: es) :
    step s = .next (clearCells { s with events := es }) :=
  step_of_event hf he

end Sys2Proof.Machine

open Sys2Proof Sys2Proof.Machine

/-- Settles O42: the image is decrypted with the table the profile selects (`selectTable`, R101); every other value is
the one `Init` writes. -/
theorem initialisationLeavesTheStatedValues : Obligations.InitialisationLeavesTheStatedValues := by
  intro c raw st sw
  have hdec {table : Vector Byte 256} (htable : selectTable c = table) :
      (State.init c raw st sw).dec = decrypt table raw := by
    rw [init_dec, htable]
  have hshm (a : Nat) : Memory.read (State.init c raw st sw).shm a = none := by
    rw [init_shm, Memory.read_nil]
  exact ⟨init_cell c raw st sw, hshm, fun h => hdec (selectTable_of_normal h), fun h => hdec (selectTable_of_alt h),
    rfl, init_fault c raw st sw, rfl, init_cfg c raw st sw⟩

/-- Settles O43: a running state takes the event by clearing its cells, and a faulted state takes no event. -/
theorem deviceResetClearsTheCellsAlone : Obligations.DeviceResetClearsTheCellsAlone :=
  fun _ _ he => ⟨fun hf => step_of_deviceReset hf he, fun _ hf => step_of_faulted hf⟩
end
